-- ==== Sys2Proof/Word.lean ====
section
/-! DEFINITION. The words of the number MDAU: register indexes, command words, the status word, digit arrays. -/

namespace Sys2Proof

/-- The 4-bit index of a value register, V0 to V15 (R12, R39: every code is valid). -/
abbrev Reg := Fin 16

/-- The 16-bit command word cw (R37, R38). -/
abbrev CommandWord := BitVec 16

/-- The 4-bit status word ST: bit 0 LT, bit 1 EQ, bit 2 GT, bit 3 ILL (R16). -/
abbrev StatusWord := BitVec 4

/-- A digit array, most significant digit first: element `i` of the list is the digit of storage index `i` (R6, R12). A digit
is a number in [0, M] (R13: its W-bit code is its binary numeral), so a plain `Nat` under the invariant `ArrayOk`; a native
unsigned integer of the K-bit ports (R5, R40) is a plain `Nat` under the check of `WellFormed.lean`. -/
abbrev DigitArray := List Nat

end Sys2Proof
end

