-- ==== Sys2Proof/Config.lean ====
section
/-! DEFINITION. The parameters of one MDAU instance (R4, R5), their bounds, the named configurations of spec/00_scope.md, and the free values the spec leaves open. -/

namespace Sys2Proof

/-- The raw parameters: digit storage width W, digit count N, largest digit M, scalar width K (R4, R5). -/
structure Params where
  W : Nat
  N : Nat
  M : Nat
  K : Nat
deriving DecidableEq, Repr

/-- The bounds of R4 (W >= 1, N > 0, 1 <= M <= 2^W - 1) and R5 (K >= W, 2^K > N). -/
def Params.wf (p : Params) : Bool :=
  decide (1 ≤ p.W) && decide (0 < p.N) && decide (1 ≤ p.M) && decide (p.M ≤ 2 ^ p.W - 1)
    && decide (p.W ≤ p.K) && decide (p.N < 2 ^ p.K)

/-- The parameters of an instance together with the proof of their bounds: what violates them is not an MDAU (R4) and
cannot be written as a `Config`, so nothing is given a meaning for it (93 U5). -/
structure Config extends Params where
  bounds : toParams.wf = true
deriving DecidableEq, Repr

/-- The base B = M + 1 (R4). -/
def Config.B (c : Config) : Nat := c.M + 1

/-- The capacity CAP = B^N, the modulus of all wrap-around (R5). -/
def Config.CAP (c : Config) : Nat := c.B ^ c.N

/-- CFG-A of spec/00_scope.md, K at its reference value 64. -/
def Config.cfgA : Config := { W := 8, N := 2, M := 255, K := 64, bounds := by decide }

/-- CFG-B of spec/00_scope.md. -/
def Config.cfgB : Config := { W := 1, N := 8, M := 1, K := 64, bounds := by decide }

/-- CFG-C of spec/00_scope.md. -/
def Config.cfgC : Config := { W := 4, N := 4, M := 9, K := 64, bounds := by decide }

/-- CFG-D of spec/00_scope.md. -/
def Config.cfgD : Config := { W := 4, N := 3, M := 6, K := 64, bounds := by decide }

/-- The instance that `State.reset` describes: DESIGN CHOICE (log 2), CFG-A. -/
def Config.reference : Config := Config.cfgA

/-- What the free values of the command port may depend on (log 6): which block it is and how many commands it has accepted
(indexes of the free values only, no state of R11 and no identifier of R135), its parameters, the accepted triple, and the
whole of V, RES and ST at acceptance. -/
structure CommandContext where
  block : Nat
  accepted : Nat
  cfg : Config
  cw : CommandWord
  xa : Nat
  xb : Nat
  v : Vector DigitArray 16
  res : Nat
  st : StatusWord
deriving DecidableEq, Repr

/-- FREE VALUE (log 6): the cycles beyond the first that an accepted command takes (R24: finite, unspecified, at least one). It
may depend on the operand values (R149), so nothing here is constant-time. -/
opaque Config.extraCycles : CommandContext → Nat

/-- FREE VALUE (log 6): what `rsp_res` carries while the command executes, with so many cycles left; R23 calls the signal valid
only when no command is executing. -/
opaque Config.busyRes : CommandContext → (cyclesLeft : Nat) → Nat

/-- FREE VALUE (log 6): what `rsp_st` carries while the command executes; R23 calls the signal valid only when no command is
executing. -/
opaque Config.busySt : CommandContext → (cyclesLeft : Nat) → StatusWord

/-- FREE VALUE (log 13), software only: the magnitude that the driver takes for the most negative K-bit native integer,
which R109 leaves open (N15, U12). -/
opaque Config.mostNegativeMagnitude : Config → Nat

end Sys2Proof
end

