-- ==== Sys2Proof/Syntax.lean ====
section
/-! DEFINITION. The command set: the triple a host presents, and one constructor of `Instr` per row of spec/opcode_table.json. -/

namespace Sys2Proof

/-- A command as the port takes it: the command word and the two scalar operands (R37). -/
structure Command where
  cw : CommandWord
  xa : Nat
  xb : Nat
deriving DecidableEq, Repr

/-- The 14 commands of R41 with the operands each of them uses: register fields of the word (R38, R39) and scalars (R40). -/
inductive Instr where
  /-- `ZERO rd` (R54) -/
  | zero (rd : Reg)
  /-- `LDN rd, #x`: x is xa (R55) -/
  | ldn (rd : Reg) (x : Nat)
  /-- `MOV rd, rs1` (R56) -/
  | mov (rd rs1 : Reg)
  /-- `STN rs1` (R57) -/
  | stn (rs1 : Reg)
  /-- `GETD rs1, #p`: p is xa (R58) -/
  | getd (rs1 : Reg) (p : Nat)
  /-- `SETD rd, #p, #x`: p is xa, x is xb (R59) -/
  | setd (rd : Reg) (p x : Nat)
  /-- `MSD rs1` (R60) -/
  | msd (rs1 : Reg)
  /-- `ADD rd, rs1, rs2` (R64) -/
  | add (rd rs1 rs2 : Reg)
  /-- `SUB rd, rs1, rs2` (R67) -/
  | sub (rd rs1 rs2 : Reg)
  /-- `MUL rd, rs1, rs2` (R72) -/
  | mul (rd rs1 rs2 : Reg)
  /-- `DIV rd, rs1, rs2` (R85) -/
  | div (rd rs1 rs2 : Reg)
  /-- `MOD rd, rs1, rs2` (R86) -/
  | mod (rd rs1 rs2 : Reg)
  /-- `POW rd, rs1, rs2` (R92) -/
  | pow (rd rs1 rs2 : Reg)
  /-- `CMP rs1, rs2` (R95) -/
  | cmp (rs1 rs2 : Reg)
deriving DecidableEq, Repr

end Sys2Proof
end

