-- ==== Sys2Proof/WellFormed.lean ====
section
/-! DEFINITION. When a term of the syntax is a command of an instance: its scalars fit the K-bit port (R37, R40). Register
indexes need no check (R39); the parameters' own check is `Params.wf`. -/

namespace Sys2Proof

/-- A scalar that the K-bit port can carry: 0 .. 2^K - 1 (R40). -/
def Config.scalarOk (c : Config) (x : Nat) : Bool := decide (x < 2 ^ c.K)

/-- An instruction of the instance: every scalar it uses fits the port (R40). -/
def Instr.wf (c : Config) : Instr → Bool
  | .ldn _ x => c.scalarOk x
  | .getd _ p => c.scalarOk p
  | .setd _ p x => c.scalarOk p && c.scalarOk x
  | .zero _ | .mov _ _ | .stn _ | .msd _ | .cmp _ _ => true
  | .add _ _ _ | .sub _ _ _ | .mul _ _ _ | .div _ _ _ | .mod _ _ _ | .pow _ _ _ => true

/-- A command triple of the instance: both scalars fit the port, used or ignored (R37). -/
def Command.wf (c : Config) (m : Command) : Bool := c.scalarOk m.xa && c.scalarOk m.xb

end Sys2Proof
end

