-- ==== Sys2Proof/Decode.lean ====
section
/-! DEFINITION. Decoding (R38 to R46): a total function on command triples that rejects by name, the opcode rows of R42, and
the encoder written from the same rows. -/

namespace Sys2Proof

/-- Why a command word is illegal (R45). -/
inductive DecodeError where
  /-- opcode 0x0 or 0xF (R44) -/
  | reservedOpcode
  /-- a legal opcode with a nonzero register field that its command does not use (R39) -/
  | nonzeroUnusedField
deriving DecidableEq, Repr

/-- `op = cw[15:12]` (R38). -/
def opField (cw : CommandWord) : BitVec 4 := cw.extractLsb' 12 4

/-- `rd = cw[11:8]` (R38). -/
def rdField (cw : CommandWord) : Reg := (cw.extractLsb' 8 4).toFin

/-- `rs1 = cw[7:4]` (R38). -/
def rs1Field (cw : CommandWord) : Reg := (cw.extractLsb' 4 4).toFin

/-- `rs2 = cw[3:0]` (R38). -/
def rs2Field (cw : CommandWord) : Reg := (cw.extractLsb' 0 4).toFin

/-- The instruction of a legal opcode, once the fields that it does not use are known to be zero (R39). -/
def checkUnused (unusedZero : Bool) (i : Instr) : Except DecodeError Instr :=
  if unusedZero then .ok i else .error .nonzeroUnusedField

/-- The case analysis of R43 on the fields; the scalars an instruction uses come with it, an ignored one is dropped (R40). -/
def decodeFields (op : Nat) (rd rs1 rs2 : Reg) (xa xb : Nat) : Except DecodeError Instr :=
  match op with
  | 0x1 => checkUnused (rs1 == 0 && rs2 == 0) (.zero rd)
  | 0x2 => checkUnused (rs1 == 0 && rs2 == 0) (.ldn rd xa)
  | 0x3 => checkUnused (rs2 == 0) (.mov rd rs1)
  | 0x4 => checkUnused (rd == 0 && rs2 == 0) (.stn rs1)
  | 0x5 => checkUnused (rd == 0 && rs2 == 0) (.getd rs1 xa)
  | 0x6 => checkUnused (rs1 == 0 && rs2 == 0) (.setd rd xa xb)
  | 0x7 => checkUnused (rd == 0 && rs2 == 0) (.msd rs1)
  | 0x8 => .ok (.add rd rs1 rs2)
  | 0x9 => .ok (.sub rd rs1 rs2)
  | 0xA => .ok (.mul rd rs1 rs2)
  | 0xB => .ok (.div rd rs1 rs2)
  | 0xC => .ok (.mod rd rs1 rs2)
  | 0xD => .ok (.pow rd rs1 rs2)
  | 0xE => checkUnused (rd == 0) (.cmp rs1 rs2)
  | _ => .error .reservedOpcode

/-- `decode` of R43, total on command triples. -/
def decode (m : Command) : Except DecodeError Instr :=
  decodeFields (opField m.cw).toNat (rdField m.cw) (rs1Field m.cw) (rs2Field m.cw) m.xa m.xb

/-- A command word is legal when it decodes; this depends on the word alone (R37). -/
def legalWord (cw : CommandWord) : Bool :=
  match decode ⟨cw, 0, 0⟩ with
  | .ok _ => true
  | .error _ => false

/-- One row of R42: `cw` selects it when `(cw AND mask) = pattern`. -/
structure OpcodeRow where
  mnemonic : String
  mask : CommandWord
  pattern : CommandWord
deriving DecidableEq, Repr

def OpcodeRow.selects (r : OpcodeRow) (cw : CommandWord) : Bool := (cw &&& r.mask) == r.pattern

/-- The rows of R42. -/
def opcodeRows : List OpcodeRow :=
  [⟨"ZERO", 0xF0FF, 0x1000⟩, ⟨"LDN", 0xF0FF, 0x2000⟩, ⟨"MOV", 0xF00F, 0x3000⟩, ⟨"STN", 0xFF0F, 0x4000⟩,
   ⟨"GETD", 0xFF0F, 0x5000⟩, ⟨"SETD", 0xF0FF, 0x6000⟩, ⟨"MSD", 0xFF0F, 0x7000⟩, ⟨"ADD", 0xF000, 0x8000⟩,
   ⟨"SUB", 0xF000, 0x9000⟩, ⟨"MUL", 0xF000, 0xA000⟩, ⟨"DIV", 0xF000, 0xB000⟩, ⟨"MOD", 0xF000, 0xC000⟩,
   ⟨"POW", 0xF000, 0xD000⟩, ⟨"CMP", 0xFF00, 0xE000⟩]

/-- The mnemonic of R41. -/
def Instr.mnemonic : Instr → String
  | .zero _ => "ZERO"
  | .ldn _ _ => "LDN"
  | .mov _ _ => "MOV"
  | .stn _ => "STN"
  | .getd _ _ => "GETD"
  | .setd _ _ _ => "SETD"
  | .msd _ => "MSD"
  | .add _ _ _ => "ADD"
  | .sub _ _ _ => "SUB"
  | .mul _ _ _ => "MUL"
  | .div _ _ _ => "DIV"
  | .mod _ _ _ => "MOD"
  | .pow _ _ _ => "POW"
  | .cmp _ _ => "CMP"

/-- The four fields of format C put together, `op` in the most significant bits (R38). -/
def formatC (op : BitVec 4) (rd rs1 rs2 : Reg) : CommandWord :=
  op ++ (BitVec.ofFin rd : BitVec 4) ++ (BitVec.ofFin rs1 : BitVec 4) ++ (BitVec.ofFin rs2 : BitVec 4)

/-- `encode` of R43: the opcode and the used fields placed, zeros elsewhere, an unused scalar driven with 0 (R47). -/
def encode : Instr → Command
  | .zero rd => ⟨formatC 0x1 rd 0 0, 0, 0⟩
  | .ldn rd x => ⟨formatC 0x2 rd 0 0, x, 0⟩
  | .mov rd rs1 => ⟨formatC 0x3 rd rs1 0, 0, 0⟩
  | .stn rs1 => ⟨formatC 0x4 0 rs1 0, 0, 0⟩
  | .getd rs1 p => ⟨formatC 0x5 0 rs1 0, p, 0⟩
  | .setd rd p x => ⟨formatC 0x6 rd 0 0, p, x⟩
  | .msd rs1 => ⟨formatC 0x7 0 rs1 0, 0, 0⟩
  | .add rd rs1 rs2 => ⟨formatC 0x8 rd rs1 rs2, 0, 0⟩
  | .sub rd rs1 rs2 => ⟨formatC 0x9 rd rs1 rs2, 0, 0⟩
  | .mul rd rs1 rs2 => ⟨formatC 0xA rd rs1 rs2, 0, 0⟩
  | .div rd rs1 rs2 => ⟨formatC 0xB rd rs1 rs2, 0, 0⟩
  | .mod rd rs1 rs2 => ⟨formatC 0xC rd rs1 rs2, 0, 0⟩
  | .pow rd rs1 rs2 => ⟨formatC 0xD rd rs1 rs2, 0, 0⟩
  | .cmp rs1 rs2 => ⟨formatC 0xE 0 rs1 rs2, 0, 0⟩

/-- The command triple of a table word: the row's bits as cw, everything above `nbits` zero, so both scalars zero (log 19). -/
def tableCommand (nbits w : Nat) : Command := ⟨BitVec.ofNat 16 (w % 2 ^ nbits), 0, 0⟩

/-- The instruction the decoder reads from a word of spec/opcode_table.json. -/
def decodeTableWord (nbits w : Nat) : Option Instr := (decode (tableCommand nbits w)).toOption

end Sys2Proof
end

