-- ==== Sys2Proof/Machine/State.lean ====
section
/-! DEFINITION. The state of one MDAU instance (R11), the reasons a step can stop, and the state after reset (R21). -/

namespace Sys2Proof.Machine

/-- Why a step faults. It has no constructor: no command of the MDAU faults, whatever its operands (R125, R137(a)). -/
inductive Fault
deriving DecidableEq, Repr

/-- Why a step gives no meaning. -/
inductive Refusal where
  /-- Raised by an arm of `exec` whose instruction is not modelled; safe. No arm raises it. -/
  | notModelled (mnemonic : String)
  /-- Raised by POW in the one configuration with CAP = 2, where two is not representable and the spec asks the model to
  refuse (R93, R137(c)); safe. -/
  | twoNotRepresentable
  /-- Raised by `step` when the host's next command carries a used scalar of more than K bits, which the K-bit port cannot
  present (R37, R40); safe (log 4). -/
  | scalarTooWide
deriving DecidableEq, Repr

/-- What the host can do to the block between two commands: present a command, or assert reset (R22, R140, 92 D27). -/
inductive HostEvent where
  | command (m : Command)
  | reset
deriving DecidableEq, Repr

/-- The state: the record of R11, the instance's parameters that it is a state of (never written, log 1), and what the host
presents from here on, next first (log 3). -/
structure State where
  /-- W, N, M, K with the proof of their bounds (R4, R5); not state of the machine, carried because every rule depends on it -/
  cfg : Config
  /-- the value registers V0 to V15 (R12) -/
  v : Vector DigitArray 16
  /-- RES, a K-bit unsigned word (R15) -/
  res : Nat
  /-- ST, bit 0 LT, bit 1 EQ, bit 2 GT, bit 3 ILL (R16) -/
  st : StatusWord
  /-- the host's inputs still to come, in the order in which the port takes them (R31) -/
  input : List HostEvent
deriving DecidableEq, Repr

/-- The all-zero digit array of the instance: the default-created value (R54). -/
def zeroArray (c : Config) : DigitArray := List.replicate c.N 0

/-- The state of R21 for an instance: every digit of every register 0, RES = 0, ST = 0000; the host's inputs are its own. -/
def State.resetOf (c : Config) (input : List HostEvent) : State :=
  { cfg := c, v := Vector.replicate 16 (zeroArray c), res := 0, st := 0, input := input }

/-- The machine right after reset (R21), as the reference instance (log 2), with nothing presented yet (log 3). -/
def State.reset : State := State.resetOf Config.reference []

end Sys2Proof.Machine
end

