-- ==== Sys2Proof/Machine/Flags.lean ====
section
/-! DEFINITION. The status register ST (R16): its fields, and the two ways its bits are written. -/

namespace Sys2Proof.Machine

/-- ST.LT, bit 0. -/
def stLT (st : StatusWord) : Bool := st.getLsbD 0

/-- ST.EQ, bit 1. -/
def stEQ (st : StatusWord) : Bool := st.getLsbD 1

/-- ST.GT, bit 2. -/
def stGT (st : StatusWord) : Bool := st.getLsbD 2

/-- ST.ILL, bit 3. -/
def stILL (st : StatusWord) : Bool := st.getLsbD 3

/-- The code that a comparison leaves in ST[2:0]: exactly one bit set (R16, R95). -/
def compareCode : Ordering → BitVec 3
  | .lt => 0b001#3
  | .eq => 0b010#3
  | .gt => 0b100#3

/-- ST after a CMP: bits 2:0 replaced together, ILL kept (R95). -/
def withCompare (st : StatusWord) (o : Ordering) : StatusWord := (st.extractLsb' 3 1) ++ compareCode o

/-- ST after an illegal command: ILL set, the other bits kept (R45, R127). -/
def withIllegal (st : StatusWord) : StatusWord := st ||| 0b1000#4

/-! The relational operators of the software type as functions of the three bits (R96). -/

/-- `==` is EQ (R96). -/
def relEq (st : StatusWord) : Bool := stEQ st

/-- `!=` is LT or GT (R96). -/
def relNe (st : StatusWord) : Bool := stLT st || stGT st

/-- `<` is LT (R96). -/
def relLt (st : StatusWord) : Bool := stLT st

/-- `<=` is LT or EQ (R96). -/
def relLe (st : StatusWord) : Bool := stLT st || stEQ st

/-- `>` is GT (R96). -/
def relGt (st : StatusWord) : Bool := stGT st

/-- `>=` is GT or EQ (R96). -/
def relGe (st : StatusWord) : Bool := stGT st || stEQ st

end Sys2Proof.Machine
end

