-- ==== Sys2Proof/Machine/Operands.lean ====
section
/-! DEFINITION. Digit arrays as operands: the accessors of R50 to R52, the value of R6 and its inverse, widening (R61), and
the bit packing of R13. The number of digits of an array is the length of its list. -/

namespace Sys2Proof.Machine

/-- `dig(d, p)`: the digit of power p, 0 for a power past the stored width (R50). -/
def dig (d : DigitArray) (p : Nat) : Nat :=
  if p < d.length then d.getD (d.length - 1 - p) 0 else 0

/-- `setdig(d, p, x)`: the digit of power p becomes `x mod B`; no change for a power past the stored width (R51). -/
def setdig (B : Nat) (d : DigitArray) (p : Nat) (x : Nat) : DigitArray :=
  if p < d.length then d.set (d.length - 1 - p) (x % B) else d

/-- The number of leading (most significant) zero digits (R52). -/
def leadingZeros : DigitArray → Nat
  | [] => 0
  | x :: xs => if x = 0 then leadingZeros xs + 1 else 0

/-- `msd(d)`: N minus the number of leading zero digits (R52). -/
def msd (d : DigitArray) : Nat := d.length - leadingZeros d

/-- `val(d)`: the sum of `d[i] * B^(N-1-i)` (R6). -/
def val (B : Nat) : DigitArray → Nat
  | [] => 0
  | x :: xs => x * B ^ xs.length + val B xs

/-- The base-B decomposition of n kept to k digits, most significant first: the digit of power p is `(n div B^p) mod B` (R55). -/
def decompose (B : Nat) : Nat → Nat → DigitArray
  | 0, _ => []
  | k + 1, n => (n / B ^ k) % B :: decompose B k n

/-- `arr(n)` of an instance (R6); for n >= CAP it is `arr(n mod CAP)`, the wrap of R55. -/
def arr (c : Config) (n : Nat) : DigitArray := decompose c.B c.N n

/-- A digit array of an instance: N digits, each in [0, M] (R8, R12). -/
abbrev ArrayOk (c : Config) (d : DigitArray) : Prop := d.length = c.N ∧ ∀ x ∈ d, x ≤ c.M

/-- `widen(d)`: zero digits on the high side up to N2 digits, for N1 <= N2 (R61). -/
def widen (n2 : Nat) (d : DigitArray) : DigitArray := List.replicate (n2 - d.length) 0 ++ d

/-- The register as N*W bits with the most significant digit in the most significant W bits (R13); no command exposes it. -/
def pack (w : Nat) : (d : DigitArray) → BitVec (d.length * w)
  | [] => BitVec.ofNat _ 0
  | x :: xs => ((BitVec.ofNat w x) ++ pack w xs).cast (by simp only [List.length_cons]; ring)

end Sys2Proof.Machine
end

