-- ==== Sys2Proof/Machine/Ops.lean ====
section
/-! DEFINITION. The shared operations over the state: reading and writing V, RES and ST, the one error outcome, and reset.
There is no memory (R25) and no exception to take or return from (R125, R130, R131). -/

namespace Sys2Proof.Machine

/-- `V[r]`, read (R6). -/
def State.reg (s : State) (r : Reg) : DigitArray := s.v[r]

/-- `V[r] <- d` (R6): no register is hardwired, read-only or an alias of another (R14). -/
def State.setReg (s : State) (r : Reg) (d : DigitArray) : State := { s with v := s.v.set r d }

/-- `RES <- v`: all K bits are overwritten (R15); what is written fits wherever a rule writes it (log 12). -/
def State.setRes (s : State) (x : Nat) : State := { s with res := x % 2 ^ s.cfg.K }

/-- The write of ST[2:0] by a comparison (R95). -/
def State.setCompare (s : State) (o : Ordering) : State := { s with st := withCompare s.st o }

/-- The value that register r represents (R6, R12). -/
def State.regVal (s : State) (r : Reg) : Nat := val s.cfg.B (s.reg r)

/-- THE ONE ERROR OUTCOME (R45, R127): `ST.ILL <- 1` and nothing else; no trap, the block does not stop. -/
def State.illegalCommand (s : State) : State := { s with st := withIllegal s.st }

/-- The reset event (R140): the state of R21 whatever it was before; the host's later inputs stay the host's. -/
def State.applyReset (s : State) : State := State.resetOf s.cfg s.input

/-- A command that ends with the whole N-digit array d in V[rd]. -/
def writeArray (rd : Reg) (d : DigitArray) (s : State) : Host.Outcome State Fault Refusal := .next (s.setReg rd d)

/-- A command that ends with the scalar x in RES. -/
def writeScalar (x : Nat) (s : State) : Host.Outcome State Fault Refusal := .next (s.setRes x)

/-- A two-source command (R14): both sources are read, the result is computed on those copies, then V[rd] is written (R7). -/
def binary (f : Config → DigitArray → DigitArray → DigitArray) (rd rs1 rs2 : Reg) (s : State) :
    Host.Outcome State Fault Refusal :=
  writeArray rd (f s.cfg (s.reg rs1) (s.reg rs2)) s

end Sys2Proof.Machine
end

