-- ==== Sys2Proof/Machine/DigitCommands.lean ====
section
/-! DEFINITION. The digit-array family of spec/40_digit_array.md: ZERO, LDN, MOV, STN, GETD, SETD, MSD. -/

namespace Sys2Proof.Machine

/-- ZERO rd: default creation (R54). -/
def execZero (rd : Reg) (s : State) : Host.Outcome State Fault Refusal := writeArray rd (zeroArray s.cfg) s

/-- LDN rd, #x: the base-B decomposition of x kept to N digits (R55). -/
def execLdn (rd : Reg) (x : Nat) (s : State) : Host.Outcome State Fault Refusal := writeArray rd (arr s.cfg x) s

/-- MOV rd, rs1: copy of all N digits (R56). -/
def execMov (rd rs1 : Reg) (s : State) : Host.Outcome State Fault Refusal := writeArray rd (s.reg rs1) s

/-- STN rs1: RES <- val mod 2^K (R57; the reduction is `State.setRes`'s). -/
def execStn (rs1 : Reg) (s : State) : Host.Outcome State Fault Refusal := writeScalar (s.regVal rs1) s

/-- GETD rs1, #p: RES <- the digit of power p, 0 past the stored width (R58). -/
def execGetd (rs1 : Reg) (p : Nat) (s : State) : Host.Outcome State Fault Refusal := writeScalar (dig (s.reg rs1) p) s

/-- SETD rd, #p, #x: the digit of power p becomes x mod B, nothing past the stored width (R59). -/
def execSetd (rd : Reg) (p x : Nat) (s : State) : Host.Outcome State Fault Refusal :=
  writeArray rd (setdig s.cfg.B (s.reg rd) p x) s

/-- MSD rs1: RES <- the number of significant digits (R60). -/
def execMsd (rs1 : Reg) (s : State) : Host.Outcome State Fault Refusal := writeScalar (msd (s.reg rs1)) s

end Sys2Proof.Machine
end

