-- ==== Sys2Proof/Machine/AddSub.lean ====
section
/-! DEFINITION. The adder and subtractor of spec/41_add_sub.md: ADD, SUB. -/

namespace Sys2Proof.Machine

/-- The loop of R63 on digits listed least significant first: the sum's digits and the final carry. -/
def addLoop (B : Nat) : List Nat → List Nat → Nat → List Nat × Nat
  | x :: xs, y :: ys, c =>
    let t := x + y + c
    let rest := addLoop B xs ys (t / B)
    (t % B :: rest.1, rest.2)
  | _, _, c => ([], c)

/-- The digit-wise sum and the carry out of the most significant digit (R63). -/
def addWithCarry (B : Nat) (a b : DigitArray) : DigitArray × Nat :=
  let r := addLoop B a.reverse b.reverse 0
  (r.1.reverse, r.2)

/-- `add(a, b)`: the final carry is discarded (R63). -/
def addArrays (c : Config) (a b : DigitArray) : DigitArray := (addWithCarry c.B a b).1

/-- The loop of R66 on digits listed least significant first: the difference's digits and the final borrow. -/
def subLoop (B : Nat) : List Nat → List Nat → Nat → List Nat × Nat
  | x :: xs, y :: ys, w =>
    let t : Int := (x : Int) - y - w
    let rest := subLoop B xs ys (if t < 0 then 1 else 0)
    ((if t < 0 then t + B else t).toNat :: rest.1, rest.2)
  | _, _, w => ([], w)

/-- The digit-wise difference and the borrow out of the most significant digit (R66). -/
def subWithBorrow (B : Nat) (a b : DigitArray) : DigitArray × Nat :=
  let r := subLoop B a.reverse b.reverse 0
  (r.1.reverse, r.2)

/-- `sub(a, b)`: a is the minuend; the final borrow is discarded (R66). -/
def subArrays (c : Config) (a b : DigitArray) : DigitArray := (subWithBorrow c.B a b).1

/-- `add_overflows` of R65: for proofs only, the block does not compute it (R126). -/
def addOverflows (c : Config) (a b : DigitArray) : Prop := c.CAP ≤ val c.B a + val c.B b

/-- `sub_underflows` of R68: for proofs only (R126). -/
def subUnderflows (c : Config) (a b : DigitArray) : Prop := val c.B a < val c.B b

/-- ADD rd, rs1, rs2 (R64). -/
def execAdd (rd rs1 rs2 : Reg) (s : State) : Host.Outcome State Fault Refusal := binary addArrays rd rs1 rs2 s

/-- SUB rd, rs1, rs2 (R67). -/
def execSub (rd rs1 rs2 : Reg) (s : State) : Host.Outcome State Fault Refusal := binary subArrays rd rs1 rs2 s

end Sys2Proof.Machine
end

