-- ==== Sys2Proof/Machine/Compare.lean ====
section
/-! DEFINITION. The comparison of spec/44_power_compare.md: CMP. -/

namespace Sys2Proof.Machine

/-- `cmp(a, b)`: lexicographic over the digit sequence, most significant digit first (R94). -/
def cmpArrays : DigitArray → DigitArray → Ordering
  | x :: xs, y :: ys => if x < y then .lt else if y < x then .gt else cmpArrays xs ys
  | _, _ => .eq

/-- The zero test that the engine's own procedures make, a comparison with the all-zero array (R77, R91). -/
def isZero (c : Config) (d : DigitArray) : Bool := cmpArrays d (zeroArray c) == .eq

/-- CMP rs1, rs2: ST.LT, ST.EQ, ST.GT, exactly one of them 1 (R95). -/
def execCmp (rs1 rs2 : Reg) (s : State) : Host.Outcome State Fault Refusal :=
  .next (s.setCompare (cmpArrays (s.reg rs1) (s.reg rs2)))

end Sys2Proof.Machine
end

