-- ==== Sys2Proof/Machine/Multiply.lean ====
section
/-! DEFINITION. The schoolbook multiplier of spec/42_multiply.md: MUL, by the reference schedule of R71 (log 7). -/

namespace Sys2Proof.Machine

/-- The term t of R71: `dig(a, i) * dig(b, j) + dig(r, i+j) + c`, with `y = dig(b, j)`. -/
def mulTerm (a : DigitArray) (y j : Nat) (r : DigitArray) (i carry : Nat) : Nat :=
  dig a i * y + dig r (i + j) + carry

/-- Row j of R71 after its first i multiply-accumulates: the partial result and the carry of the row. -/
def mulRow (B : Nat) (a : DigitArray) (y j : Nat) (r : DigitArray) : Nat → DigitArray × Nat
  | 0 => (r, 0)
  | i + 1 =>
    match mulRow B a y j r i with
    | (r', carry) =>
      let t := mulTerm a y j r' i carry
      (setdig B r' (i + j) (t % B), t / B)

/-- The partial result of R71 after the rows of the first j digits of b; a row's last carry is dropped. -/
def mulRows (B : Nat) (a b : DigitArray) : Nat → DigitArray
  | 0 => List.replicate a.length 0
  | j + 1 => (mulRow B a (dig b j) j (mulRows B a b j) a.length).1

/-- `mul(a, b)`: the low N digits of the product (R70), by the schedule of R71. -/
def mulArrays (c : Config) (a b : DigitArray) : DigitArray := mulRows c.B a b c.N

/-- `mul_overflows` of R73: for proofs only (R126). -/
def mulOverflows (c : Config) (a b : DigitArray) : Prop := c.CAP ≤ val c.B a * val c.B b

/-- MUL rd, rs1, rs2 (R72). -/
def execMul (rd rs1 rs2 : Reg) (s : State) : Host.Outcome State Fault Refusal := binary mulArrays rd rs1 rs2 s

end Sys2Proof.Machine
end

