-- ==== Sys2Proof/Machine/Divide.lean ====
section
/-! DEFINITION. The long divider of spec/43_divide.md: DIV, MOD, by Algorithm D as R77 to R84 give it (log 7). Working values
are lists of digits LEAST significant first, so that `U[p]` has place value B^p, as in R79. -/

namespace Sys2Proof.Machine

/-- One pass of single-digit multiplication with carry, the last carry as one more digit on top (R79). -/
def scaleLoop (B f : Nat) : List Nat → Nat → List Nat
  | [], carry => [carry]
  | x :: xs, carry => (x * f + carry) % B :: scaleLoop B f xs ((x * f + carry) / B)

/-- The working value `val * f`, one digit wider than its operand (R79). -/
def scale (B f : Nat) (x : List Nat) : List Nat := scaleLoop B f x 0

/-- The scale factor `f = B div (lead + 1)` (R78). -/
def scaleFactor (B lead : Nat) : Nat := B / (lead + 1)

/-- The first correction check of R81, with `d1 = D[n-1]`, `d2 = D[n-2]`, `u2 = U[j+n-2]`; it returns the corrected qhat. The
fuel is R148's bound on the number of turns. -/
def firstCheck (B n d1 d2 u2 : Nat) : (fuel qhat rhat : Nat) → Nat
  | 0, qhat, _ => qhat
  | fuel + 1, qhat, rhat =>
    if B ≤ qhat ∨ (2 ≤ n ∧ rhat * B + u2 < qhat * d2) then
      if rhat + d1 < B then firstCheck B n d1 d2 u2 fuel (qhat - 1) (rhat + d1) else qhat - 1
    else qhat

/-- The second correction check of R82: the estimate is decremented until the trial product `qhat * D` does not exceed the
window, both compared as n+1-digit numbers. -/
def secondCheck (B : Nat) (D window : List Nat) : Nat → Nat
  | 0 => 0
  | q + 1 =>
    if cmpArrays (scale B (q + 1) D).reverse window.reverse = .gt then secondCheck B D window q else q + 1

/-- The window of iteration j: the n+1 working-dividend digits U[j] .. U[j+n] (R80). -/
def divWindow (n : Nat) (U : List Nat) (j : Nat) : List Nat := (U.drop j).take (n + 1)

/-- The quotient digit of iteration j: estimate (R80), first check (R81), second check (R82); D has n digits. -/
def quotientDigit (B : Nat) (D U : List Nat) (j : Nat) : Nat :=
  let n := D.length
  let d1 := D.getD (n - 1) 0
  let num := U.getD (j + n) 0 * B + U.getD (j + n - 1) 0
  let qhat := firstCheck B n d1 (D.getD (n - 2) 0) (U.getD (j + n - 2) 0) (B / d1 + 2) (num / d1) (num % d1)
  secondCheck B D (divWindow n U j) qhat

/-- The working dividend after iteration j: the accepted trial product subtracted from the window in place (R83). -/
def subtractTrial (B : Nat) (D U : List Nat) (j q : Nat) : List Nat :=
  let n := D.length
  U.take j ++ (subLoop B (divWindow n U j) (scale B q D) 0).1 ++ U.drop (j + n + 1)

/-- The iterations j-1, ..., 0 of R80 to R83: the quotient digits, most significant first, and the final working dividend. -/
def divLoop (B : Nat) (D : List Nat) : Nat → List Nat → List Nat × List Nat
  | 0, U => ([], U)
  | j + 1, U =>
    let q := quotientDigit B D U j
    let rest := divLoop B D j (subtractTrial B D U j q)
    (q :: rest.1, rest.2)

/-- Algorithm D on operands with val(a) > val(b) >= 2 (R78 to R84): N quotient digits, most significant first. -/
def algorithmD (c : Config) (a b : DigitArray) : DigitArray :=
  let m := msd a
  let n := msd b
  let f := scaleFactor c.B (dig b (n - 1))
  let U := scale c.B f a.reverse
  let D := (scale c.B f b.reverse).take n
  List.replicate (c.N - (m - n + 1)) 0 ++ (divLoop c.B D (m - n + 1) U).1

/-- `divq(a, b)` (R75): the five special cases of R77, a zero divisor giving zero (R88), then Algorithm D. -/
def divArrays (c : Config) (a b : DigitArray) : DigitArray :=
  if isZero c a then zeroArray c
  else if isZero c b then zeroArray c
  else
    match cmpArrays b a with
    | .gt => zeroArray c
    | .eq => arr c 1
    | .lt => if cmpArrays b (arr c 1) = .eq then a else algorithmD c a b

/-- `modr(a, b)` (R76): dividend minus quotient times divisor; zero for a zero divisor (R88, 90 C1). -/
def modArrays (c : Config) (a b : DigitArray) : DigitArray :=
  if isZero c b then zeroArray c else subArrays c a (mulArrays c (divArrays c a b) b)

/-- DIV rd, rs1, rs2 (R85). -/
def execDiv (rd rs1 rs2 : Reg) (s : State) : Host.Outcome State Fault Refusal := binary divArrays rd rs1 rs2 s

/-- MOD rd, rs1, rs2 (R86). -/
def execMod (rd rs1 rs2 : Reg) (s : State) : Host.Outcome State Fault Refusal := binary modArrays rd rs1 rs2 s

end Sys2Proof.Machine
end

