-- ==== Sys2Proof/Machine/Power.lean ====
section
/-! DEFINITION. The exponentiation of spec/44_power_compare.md: POW, by square-and-multiply as R91 gives it (log 7, log 8). -/

namespace Sys2Proof.Machine

/-- The loop of R91: running product r, running square s, remaining exponent x; it ends when x is zero. -/
def powLoop (c : Config) (two : DigitArray) : (fuel : Nat) → (r s x : DigitArray) → DigitArray
  | 0, r, _, _ => r
  | fuel + 1, r, s, x =>
    if isZero c x then r
    else
      powLoop c two fuel (if isZero c (modArrays c x two) then r else mulArrays c r s) (mulArrays c s s) (divArrays c x two)

/-- A bound on the binary digits of an exponent: B <= 2^W, so val(e) < 2^(N*W) (R148). -/
def powFuel (c : Config) : Nat := c.N * c.W

/-- `pow(a, e)` (R90) by the schedule of R91, for CAP >= 3. -/
def powArrays (c : Config) (a e : DigitArray) : DigitArray := powLoop c (arr c 2) (powFuel c) (arr c 1) a e

/-- POW rd, rs1, rs2 (R92); refused in the configuration with CAP = 2 (R93). -/
def execPow (rd rs1 rs2 : Reg) (s : State) : Host.Outcome State Fault Refusal :=
  if s.cfg.CAP = 2 then .refused .twoNotRepresentable else binary powArrays rd rs1 rs2 s

end Sys2Proof.Machine
end

