-- ==== Sys2Proof/Machine/Dispatch.lean ====
section
/-! DEFINITION. One arm per command of R41. -/

namespace Sys2Proof.Machine

def exec (i : Instr) (s : State) : Host.Outcome State Fault Refusal :=
  match i with
  | .zero rd => Sys2Proof.Machine.execZero rd s
  | .ldn rd x => Sys2Proof.Machine.execLdn rd x s
  | .mov rd rs1 => Sys2Proof.Machine.execMov rd rs1 s
  | .stn rs1 => Sys2Proof.Machine.execStn rs1 s
  | .getd rs1 p => Sys2Proof.Machine.execGetd rs1 p s
  | .setd rd p x => Sys2Proof.Machine.execSetd rd p x s
  | .msd rs1 => Sys2Proof.Machine.execMsd rs1 s
  | .add rd rs1 rs2 => Sys2Proof.Machine.execAdd rd rs1 rs2 s
  | .sub rd rs1 rs2 => Sys2Proof.Machine.execSub rd rs1 rs2 s
  | .mul rd rs1 rs2 => Sys2Proof.Machine.execMul rd rs1 rs2 s
  | .div rd rs1 rs2 => Sys2Proof.Machine.execDiv rd rs1 rs2 s
  | .mod rd rs1 rs2 => Sys2Proof.Machine.execMod rd rs1 rs2 s
  | .pow rd rs1 rs2 => Sys2Proof.Machine.execPow rd rs1 rs2 s
  | .cmp rs1 rs2 => Sys2Proof.Machine.execCmp rs1 rs2 s

end Sys2Proof.Machine
end

