-- ==== Sys2Proof/Machine/Accept.lean ====
section
/-! DEFINITION. One accepted command, carried out whole (R10, R31): decoding, then either the instruction or the one error outcome. -/

namespace Sys2Proof.Machine

/-- The command m on the state s. Legality is decided first and from the word alone (R37, R129): an illegal word has the
outcome of R45 whatever its scalars are; a legal one runs, provided that the scalars it uses fit the K-bit port (log 4). -/
def runCommand (m : Command) (s : State) : Host.Outcome State Fault Refusal :=
  match decode m with
  | .error _ => .next s.illegalCommand
  | .ok i => if i.wf s.cfg then exec i s else .refused .scalarTooWide

/-- One input of the host on the state s: a command, or the reset event (R140). -/
def runEvent (e : HostEvent) (s : State) : Host.Outcome State Fault Refusal :=
  match e with
  | .command m => runCommand m s
  | .reset => .next s.applyReset

/-- The response that the host sees: RES and ST as they stand (R22). -/
def response (s : State) : Nat × StatusWord := (s.res, s.st)

/-- The next step takes the given command first; nothing else changes. -/
def present (m : Command) (s : State) : State := { s with input := .command m :: s.input }

end Sys2Proof.Machine
end

