-- ==== Sys2Proof/Machine/Step.lean ====
section
/-! DEFINITION. One step of the machine: the next input of the host, carried out whole (R10); with no input left the block is
quiescent (R144). -/

namespace Sys2Proof.Machine

/-- The state that a step's effect starts from: the input e taken off the queue, every machine register as before. -/
def State.afterInput (s : State) (rest : List HostEvent) : State := { s with input := rest }

/-- One step (R10, R31): there is no program counter and no fetch (R17, R34), the next command is the host's. -/
def step (s : State) : Host.Outcome State Fault Refusal :=
  match s.input with
  | [] => .next s
  | e :: rest => runEvent e (s.afterInput rest)

/-- The table word presented as the host's next command (log 19). -/
def State.withFetchWord (s : State) (nbits w : Nat) : State := present (tableCommand nbits w) s

end Sys2Proof.Machine
end

