-- ==== Sys2Proof/Machine/Signed.lean ====
section
/-! DEFINITION. The signed wrapper of spec/46_signed_wrapper.md: reference functions of the surrounding software, pure functions
over the engine (R3); no command, no state. -/

namespace Sys2Proof.Machine

/-- The two-valued sign flag: POS (zero or positive), NEG (negative) (R100, 90 C5). -/
inductive Sign where
  | pos
  | neg
deriving DecidableEq, Repr

/-- The other sign (R103). -/
def Sign.flip : Sign → Sign
  | .pos => .neg
  | .neg => .pos

/-- A signed value: a sign and an N-digit magnitude (R100). -/
structure Signed where
  sign : Sign
  mag : DigitArray
deriving DecidableEq, Repr

/-- The number represented (R100). -/
def Signed.toInt (c : Config) (x : Signed) : Int :=
  match x.sign with
  | .pos => (val c.B x.mag : Int)
  | .neg => -(val c.B x.mag : Int)

/-- `canon(s, m)`: a zero magnitude takes the positive flag (R101). -/
def canon (c : Config) (t : Sign) (m : DigitArray) : Signed := if isZero c m then ⟨.pos, m⟩ else ⟨t, m⟩

/-- The invariant of R101 on an N-digit magnitude. -/
abbrev Signed.Canonical (c : Config) (x : Signed) : Prop := ArrayOk c x.mag ∧ canon c x.sign x.mag = x

/-- Unary plus: the sign forced positive, the legacy behaviour (R102). -/
def uplus (x : Signed) : Signed := ⟨.pos, x.mag⟩

/-- Negation (R103). -/
def sneg (c : Config) (x : Signed) : Signed := if isZero c x.mag then x else ⟨x.sign.flip, x.mag⟩

/-- Signed addition (R104). -/
def sadd (c : Config) (x y : Signed) : Signed :=
  if x.sign = y.sign then canon c x.sign (addArrays c x.mag y.mag)
  else
    match cmpArrays x.mag y.mag with
    | .eq => ⟨.pos, zeroArray c⟩
    | .gt => ⟨x.sign, subArrays c x.mag y.mag⟩
    | .lt => ⟨y.sign, subArrays c y.mag x.mag⟩

/-- Signed subtraction (R105). -/
def ssub (c : Config) (x y : Signed) : Signed := sadd c x (sneg c y)

/-- The sign of a product or quotient before canonicalisation (R106). -/
def productSign (sx sy : Sign) : Sign := if sx = sy then .pos else .neg

/-- Signed multiplication (R106). -/
def smul (c : Config) (x y : Signed) : Signed := canon c (productSign x.sign y.sign) (mulArrays c x.mag y.mag)

/-- Signed division (R106). -/
def sdiv (c : Config) (x y : Signed) : Signed := canon c (productSign x.sign y.sign) (divArrays c x.mag y.mag)

/-- Signed modulus: the dividend's sign (R107). -/
def smod (c : Config) (x y : Signed) : Signed := canon c x.sign (modArrays c x.mag y.mag)

/-- Signed comparison (R108). -/
def scmp (x y : Signed) : Ordering :=
  match x.sign, y.sign with
  | .neg, .pos => .lt
  | .pos, .neg => .gt
  | .pos, .pos => cmpArrays x.mag y.mag
  | .neg, .neg => cmpArrays y.mag x.mag

/-- The most negative K-bit native signed integer, two's complement (PRESUMED, log 14). -/
def mostNegative (c : Config) : Int := -(2 ^ (c.K - 1))

/-- From a native signed integer: absolute value and sign (R109); the most negative one is split into a magnitude that the spec
leaves open, a free value (log 13). -/
def fromSigned (c : Config) (z : Int) : Signed :=
  let magnitude := if z = mostNegative c then Config.mostNegativeMagnitude c else z.natAbs
  canon c (if z < 0 then .neg else .pos) (arr c (magnitude % c.CAP))

/-- To a native signed integer, as its K-bit word: `+(val mod 2^K)`, or its negation in the native type (R109, log 14). -/
def toSignedWord (c : Config) (x : Signed) : BitVec c.K :=
  match x.sign with
  | .pos => BitVec.ofNat c.K (val c.B x.mag)
  | .neg => -BitVec.ofNat c.K (val c.B x.mag)

end Sys2Proof.Machine
end

