-- ==== Sys2Proof/Machine/Codec.lean ====
section
/-! DEFINITION. The string codec and the stream contract of spec/47_string_codec.md, and the signed stream form of R110:
reference functions of the surrounding software (R3). Text is a list of characters. -/

namespace Sys2Proof.Machine

/-- The four text bases (R113). -/
inductive TextBase where
  | binary
  | octal
  | decimal
  | hexadecimal
deriving DecidableEq, Repr

/-- The radix of a text base (R113). -/
def TextBase.radix : TextBase → Nat
  | .binary => 2
  | .octal => 8
  | .decimal => 10
  | .hexadecimal => 16

/-- Why a codec function has no meaning: N digits cannot hold the text base, `base >= CAP` (R114, 93 U1, log 16). -/
inductive CodecRefusal where
  | baseNotRepresentable
deriving DecidableEq, Repr

/-- The output character of a digit value 0 .. 15, lowercase (R113). -/
def digitChar (d : Nat) : Char := if d < 10 then Char.ofNat (48 + d) else Char.ofNat (87 + d)

/-- The digit value of an input character, case-insensitive; nothing for any other character (R113). -/
def charDigit (ch : Char) : Option Nat :=
  let n := ch.toNat
  if 48 ≤ n ∧ n ≤ 57 then some (n - 48)
  else if 97 ≤ n ∧ n ≤ 102 then some (n - 87)
  else if 65 ≤ n ∧ n ≤ 70 then some (n - 55)
  else none

/-- The loop of R114: the characters collected, least significant first. -/
def toTextLoop (c : Config) (b : DigitArray) : (fuel : Nat) → DigitArray → List Char
  | 0, _ => []
  | fuel + 1, x =>
    if isZero c x then []
    else digitChar (val c.B (modArrays c x b)) :: toTextLoop c b fuel (divArrays c x b)

/-- `to_string(v, base)` (R114); zero gives the empty text (R115). A base is at least 2, so N*W divisions reach zero (R148). -/
def toText (c : Config) (base : TextBase) (v : DigitArray) : Except CodecRefusal (List Char) :=
  if c.CAP ≤ base.radix then .error .baseNotRepresentable
  else .ok (toTextLoop c (arr c base.radix) (powFuel c) v).reverse

/-- The loop of R116 over the characters from the last to the first. -/
def fromTextLoop (c : Config) (radix : Nat) : List Char → (acc place : DigitArray) → Option DigitArray
  | [], acc, _ => some acc
  | ch :: rest, acc, place =>
    match charDigit ch with
    | none => none
    | some d =>
      if radix ≤ d then none
      else fromTextLoop c radix rest (addArrays c acc (mulArrays c place (arr c d))) (mulArrays c place (arr c radix))

/-- `from_string(text, base)` (R116, R117): `none` is the absent result. -/
def fromText (c : Config) (base : TextBase) (text : List Char) : Except CodecRefusal (Option DigitArray) :=
  if c.CAP ≤ base.radix then .error .baseNotRepresentable
  else .ok (fromTextLoop c base.radix text.reverse (zeroArray c) (arr c 1))

/-- The ambient formatting mode of a text stream (R120). -/
inductive StreamMode where
  | oct
  | dec
  | hex
  | other
deriving DecidableEq, Repr

/-- The base that a mode selects; any other mode is decimal, binary is not reachable (R120). -/
def StreamMode.base : StreamMode → TextBase
  | .oct => .octal
  | .dec => .decimal
  | .hex => .hexadecimal
  | .other => .decimal

/-- A character that delimits tokens: space, tab, line feed, vertical tab, form feed, carriage return (PRESUMED, log 17). -/
def isStreamSpace (ch : Char) : Bool := ch.toNat = 32 || (9 ≤ ch.toNat && ch.toNat ≤ 13)

/-- One whitespace-delimited token of the stream, and what follows it (R120). That all white space before the token is skipped
and that the delimiter after it stays in the stream is PRESUMED (log 17): R120 says only that one token is consumed. -/
def nextToken (stream : List Char) : List Char × List Char :=
  (stream.dropWhile isStreamSpace).span (fun ch => !isStreamSpace ch)

/-- Unsigned stream read: the parsed token and the rest of the stream (R120). -/
def streamRead (c : Config) (mode : StreamMode) (stream : List Char) :
    Except CodecRefusal (Option DigitArray × List Char) :=
  let (token, rest) := nextToken stream
  (fromText c mode.base token).map (fun r => (r, rest))

/-- Unsigned stream write: the text appended to what was written (R120). -/
def streamWrite (c : Config) (mode : StreamMode) (v : DigitArray) (written : List Char) :
    Except CodecRefusal (List Char) :=
  (toText c mode.base v).map (fun t => written ++ t)

/-- The optional leading sign of a signed token and the remainder (R110). -/
def splitSign : List Char → Sign × List Char
  | '+' :: rest => (.pos, rest)
  | '-' :: rest => (.neg, rest)
  | text => (.pos, text)

/-- Signed parse: an optional sign, then the unsigned parse of the remainder (R110). -/
def signedFromText (c : Config) (base : TextBase) (text : List Char) : Except CodecRefusal (Option Signed) :=
  let (t, rest) := splitSign text
  (fromText c base rest).map (fun r => r.map (canon c t))

/-- Signed stream read (R110, R120). -/
def signedStreamRead (c : Config) (mode : StreamMode) (stream : List Char) :
    Except CodecRefusal (Option Signed × List Char) :=
  let (token, rest) := nextToken stream
  (signedFromText c mode.base token).map (fun r => (r, rest))

/-- Signed text: a `-` before a negative magnitude (the spec's own assumption, log 15), a `+` before the others only in the
always-show-sign mode (R110). -/
def signedToText (c : Config) (base : TextBase) (showSign : Bool) (x : Signed) : Except CodecRefusal (List Char) :=
  (toText c base x.mag).map (fun t =>
    match x.sign, showSign with
    | .neg, _ => '-' :: t
    | .pos, true => '+' :: t
    | .pos, false => t)

/-- Signed stream write (R110, R120). -/
def signedStreamWrite (c : Config) (mode : StreamMode) (showSign : Bool) (x : Signed) (written : List Char) :
    Except CodecRefusal (List Char) :=
  (signedToText c mode.base showSign x).map (fun t => written ++ t)

end Sys2Proof.Machine
end

