-- ==== Sys2Proof/Machine/Assembler.lean ====
section
/-! DEFINITION. The assembler syntax of R47 with the pseudo-commands of R49. A line is a list of characters. What R47 does not
fix of the lexical form (white space, case, leading zeros) is log 18. -/

namespace Sys2Proof.Machine

/-- An operand as written: a value register or a scalar (R47). -/
inductive AsmOperand where
  | reg (r : Reg)
  | scalar (x : Nat)
deriving DecidableEq, Repr

/-- The outcome of assembling one line. -/
inductive AsmLine where
  /-- only white space and comment -/
  | empty
  /-- one command -/
  | command (i : Instr)
  /-- not a line of R47 -/
  | rejected
deriving DecidableEq, Repr

/-- The decimal numeral of a number. -/
def decimalText (n : Nat) : List Char := Nat.toDigits 10 n

/-- `V0` .. `V15` (R47). -/
def regText (r : Reg) : List Char := 'V' :: decimalText r.val

/-- A nonempty numeral in a radix, most significant digit first. -/
def numeral (radix : Nat) (text : List Char) : Option Nat :=
  match text with
  | [] => none
  | _ =>
    text.foldl
      (fun acc ch =>
        match acc, charDigit ch with
        | some n, some d => if d < radix then some (n * radix + d) else none
        | _, _ => none)
      (some 0)

/-- The register that a text names (R47). -/
def parseReg (text : List Char) : Option Reg := (List.finRange 16).find? (fun r => regText r == text)

/-- A scalar: `#` and a decimal numeral, or `#0x` and hexadecimal digits (R47). -/
def parseScalar : List Char → Option Nat
  | '#' :: '0' :: 'x' :: rest => numeral 16 rest
  | '#' :: rest => numeral 10 rest
  | _ => none

/-- One operand. -/
def parseOperand (text : List Char) : Option AsmOperand :=
  match parseReg text with
  | some r => some (.reg r)
  | none => (parseScalar text).map .scalar

/-- White space removed at both ends. -/
def trimSpace (text : List Char) : List Char :=
  ((text.dropWhile isStreamSpace).reverse.dropWhile isStreamSpace).reverse

/-- The pieces between commas. -/
def splitCommas : List Char → List (List Char)
  | [] => [[]]
  | ch :: rest =>
    if ch = ',' then [] :: splitCommas rest
    else
      match splitCommas rest with
      | [] => [[ch]]
      | piece :: pieces => (ch :: piece) :: pieces

/-- The operands of a line, in order; a line may have none. -/
def parseOperands (text : List Char) : Option (List AsmOperand) :=
  match trimSpace text with
  | [] => some []
  | t => (splitCommas t).mapM (fun piece => parseOperand (trimSpace piece))

/-- A command from its mnemonic and operands (the table of R47, and R49's NOP and CLR). -/
def buildCommand (mnemonic : List Char) (ops : List AsmOperand) : Option Instr :=
  match mnemonic, ops with
  | ['Z', 'E', 'R', 'O'], [.reg d] => some (.zero d)
  | ['L', 'D', 'N'], [.reg d, .scalar x] => some (.ldn d x)
  | ['M', 'O', 'V'], [.reg d, .reg a] => some (.mov d a)
  | ['S', 'T', 'N'], [.reg a] => some (.stn a)
  | ['G', 'E', 'T', 'D'], [.reg a, .scalar p] => some (.getd a p)
  | ['S', 'E', 'T', 'D'], [.reg d, .scalar p, .scalar x] => some (.setd d p x)
  | ['M', 'S', 'D'], [.reg a] => some (.msd a)
  | ['A', 'D', 'D'], [.reg d, .reg a, .reg b] => some (.add d a b)
  | ['S', 'U', 'B'], [.reg d, .reg a, .reg b] => some (.sub d a b)
  | ['M', 'U', 'L'], [.reg d, .reg a, .reg b] => some (.mul d a b)
  | ['D', 'I', 'V'], [.reg d, .reg a, .reg b] => some (.div d a b)
  | ['M', 'O', 'D'], [.reg d, .reg a, .reg b] => some (.mod d a b)
  | ['P', 'O', 'W'], [.reg d, .reg a, .reg b] => some (.pow d a b)
  | ['C', 'M', 'P'], [.reg a, .reg b] => some (.cmp a b)
  | ['N', 'O', 'P'], [] => some (.mov 0 0)
  | ['C', 'L', 'R'], [.reg d] => some (.zero d)
  | _, _ => none

/-- One line (R47): text from `;` is a comment; then the mnemonic, and the operands separated by commas. -/
def assembleLine (line : List Char) : AsmLine :=
  match trimSpace (line.takeWhile (fun ch => ch != ';')) with
  | [] => .empty
  | text =>
    let (mnemonic, rest) := text.span (fun ch => !isStreamSpace ch)
    match parseOperands rest with
    | none => .rejected
    | some ops =>
      match buildCommand mnemonic ops with
      | none => .rejected
      | some i => .command i

/-- The operands as R47 writes them. -/
def operandText : AsmOperand → List Char
  | .reg r => regText r
  | .scalar x => '#' :: decimalText x

/-- The operands of an instruction in R47's order: destination, sources, scalars. -/
def Instr.operands : Instr → List AsmOperand
  | .zero d => [.reg d]
  | .ldn d x => [.reg d, .scalar x]
  | .mov d a => [.reg d, .reg a]
  | .stn a => [.reg a]
  | .getd a p => [.reg a, .scalar p]
  | .setd d p x => [.reg d, .scalar p, .scalar x]
  | .msd a => [.reg a]
  | .add d a b | .sub d a b | .mul d a b | .div d a b | .mod d a b | .pow d a b => [.reg d, .reg a, .reg b]
  | .cmp a b => [.reg a, .reg b]

/-- The line that R47 writes for an instruction. -/
def disassemble (i : Instr) : List Char :=
  i.mnemonic.toList ++ [' '] ++ [',', ' '].intercalate ((Instr.operands i).map operandText)

end Sys2Proof.Machine
end

