-- ==== Sys2Proof/Machine/System.lean ====
section
/-! DEFINITION. Runs of the host's inputs on one instance (R31, R140), and any number of MDAU instances side by side (R36, R135):
they share no state, carry no identifier, signal nothing to one another, and each starts at its own reset. -/

namespace Sys2Proof.Machine

/-- What comes after a state that was answered; a refusal stays as it is. -/
def andThen {α : Type} (o : Host.Outcome State Fault Refusal) (f : State → Host.Outcome α Fault Refusal) :
    Host.Outcome α Fault Refusal :=
  match o with
  | .next s => f s
  | .fault r => .fault r
  | .refused r => .refused r

/-- The host's inputs to one instance in order, commands and resets, each whole, stopping at the first refusal (R31, R140). -/
def runEvents : List HostEvent → State → Host.Outcome State Fault Refusal
  | [], s => .next s
  | e :: rest, s => andThen (runEvent e s) (runEvents rest)

/-- The commands in order: `step(cn, ... step(c1, s0))` (R31). -/
def runCommands (ms : List Command) (s : State) : Host.Outcome State Fault Refusal := runEvents (ms.map .command) s

/-- A system of n instances (R135), each with its own parameters and its own port: what its inputs so far have led each to. An
instance that was refused stays so, and the others go on (log 24). The position in the vector is the host's name for an
instance; no instance holds it. -/
abbrev Instances (n : Nat) := Vector (Host.Outcome State Fault Refusal) n

/-- One input of the host to instance k: a command, or that instance's own reset (R135). -/
def Instances.event {n : Nat} (k : Fin n) (e : HostEvent) (sys : Instances n) : Instances n :=
  sys.set k (andThen sys[k] (runEvent e))

/-- An interleaving of inputs to the instances. -/
def Instances.run {n : Nat} : List (Fin n × HostEvent) → Instances n → Instances n
  | [], sys => sys
  | (k, e) :: rest, sys => Instances.run rest (sys.event k e)

/-- The inputs of instance k, in their order. -/
def eventsOf {n : Nat} (k : Fin n) (l : List (Fin n × HostEvent)) : List HostEvent :=
  (l.filter (fun e => e.1 == k)).map Prod.snd

/-- The two instances of a host procedure that moves a value between them: from the left one to the right one (R36, R61). -/
structure TwoInstances where
  left : State
  right : State
deriving DecidableEq, Repr

end Sys2Proof.Machine
end

