-- ==== Sys2Proof/Machine/Driver.lean ====
section
/-! DEFINITION. The host procedures that the spec describes over the commands: the signed wrapper (R112), widening and
narrowing between instances (R61) and the string codec (R121). The host keeps sign flags and text itself and decides from (RES, ST) (R138). -/

namespace Sys2Proof.Machine

/-- The host issues one instruction as its encoded triple. -/
def issue (i : Instr) (s : State) : Host.Outcome State Fault Refusal := runCommand (encode i) s

/-- The instructions in order. -/
def issueAll : List Instr → State → Host.Outcome State Fault Refusal
  | [], s => .next s
  | i :: rest, s => andThen (issue i s) (issueAll rest)

/-- The zero test for `canon`: `MSD Vd` and RES = 0. R112 also allows a CMP against a zeroed register; MSD, which overwrites RES
and keeps ST, is a DESIGN CHOICE (log 26). -/
def driverCanon (rd : Reg) (t : Sign) (s : State) : Host.Outcome (Sign × State) Fault Refusal :=
  andThen (issue (.msd rd) s) (fun u => .next (if u.res = 0 then .pos else t, u))

/-- `sadd` by commands: the magnitudes in Vx and Vy, the result's in Vd (R112). With equal signs R112 names one ADD alone; the
MSD after it, for POS + POS too, by which the host learns whether the `canon` of R104 applies, is a DESIGN CHOICE (log 26). -/
def driverSadd (rd rx ry : Reg) (sx sy : Sign) (s : State) : Host.Outcome (Sign × State) Fault Refusal :=
  if sx = sy then andThen (issue (.add rd rx ry) s) (driverCanon rd sx)
  else
    andThen (issue (.cmp rx ry) s) (fun u =>
      if stGT u.st then andThen (issue (.sub rd rx ry) u) (fun t => .next (sx, t))
      else if stLT u.st then andThen (issue (.sub rd ry rx) u) (fun t => .next (sy, t))
      else andThen (issue (.zero rd) u) (fun t => .next (.pos, t)))

/-- `smul` by commands (R112). -/
def driverSmul (rd rx ry : Reg) (sx sy : Sign) (s : State) : Host.Outcome (Sign × State) Fault Refusal :=
  andThen (issue (.mul rd rx ry) s) (driverCanon rd (productSign sx sy))

/-- `sdiv` by commands (R112). -/
def driverSdiv (rd rx ry : Reg) (sx sy : Sign) (s : State) : Host.Outcome (Sign × State) Fault Refusal :=
  andThen (issue (.div rd rx ry) s) (driverCanon rd (productSign sx sy))

/-- `smod` by commands (R112). -/
def driverSmod (rd rx ry : Reg) (sx : Sign) (s : State) : Host.Outcome (Sign × State) Fault Refusal :=
  andThen (issue (.mod rd rx ry) s) (driverCanon rd sx)

/-- The order that ST[2:0] shows after a CMP (R16). -/
def statusOrdering (st : StatusWord) : Ordering := if stLT st then .lt else if stGT st then .gt else .eq

/-- `scmp` by commands: one CMP with the operands in the order of R108 when the signs agree (R112). -/
def driverScmp (rx ry : Reg) (sx sy : Sign) (s : State) : Host.Outcome (Ordering × State) Fault Refusal :=
  match sx, sy with
  | .neg, .pos => .next (.lt, s)
  | .pos, .neg => .next (.gt, s)
  | .pos, .pos => andThen (issue (.cmp rx ry) s) (fun u => .next (statusOrdering u.st, u))
  | .neg, .neg => andThen (issue (.cmp ry rx) s) (fun u => .next (statusOrdering u.st, u))

/-- The first k turns of the GETD/SETD loop of R61: the digits of powers 0 .. k-1 of the source's Vs copied to the target's Vd. -/
def driverCopyDigits (rs rd : Reg) : Nat → TwoInstances → Host.Outcome TwoInstances Fault Refusal
  | 0, p => .next p
  | k + 1, p =>
    match driverCopyDigits rs rd k p with
    | .next q =>
      andThen (issue (.getd rs k) q.left) (fun u =>
        andThen (issue (.setd rd k u.res) q.right) (fun t => .next ⟨u, t⟩))
    | .fault r => .fault r
    | .refused r => .refused r

/-- A value moved from the left instance to the wider right instance: ZERO on the target, then the loop (R61). -/
def driverWiden (rs rd : Reg) (p : TwoInstances) : Host.Outcome TwoInstances Fault Refusal :=
  andThen (issue (.zero rd) p.right) (fun t => driverCopyDigits rs rd p.left.cfg.N ⟨p.left, t⟩)

/-- A value moved from the left instance to the right one with no more digits: the loop over the target's digits keeps the low
ones (R61; the host's own construction, log 25). -/
def driverNarrow (rs rd : Reg) (p : TwoInstances) : Host.Outcome TwoInstances Fault Refusal :=
  andThen (issue (.zero rd) p.right) (fun t => driverCopyDigits rs rd p.right.cfg.N ⟨p.left, t⟩)

/-- The host loop of `to_string`: Vx is consumed, Vb holds the base, Vt is scratch (R121). R121 lets the loop test for zero by CMP
or by MSD; MSD, so that RES and not ST is written by the test, is a DESIGN CHOICE (log 26). -/
def driverToTextLoop (rx rb rt : Reg) : (fuel : Nat) → State → Host.Outcome (List Char × State) Fault Refusal
  | 0, s => .next ([], s)
  | fuel + 1, s =>
    andThen (issue (.msd rx) s) (fun u =>
      if u.res = 0 then .next ([], u)
      else
        andThen (issueAll [.mod rt rx rb, .stn rt] u) (fun t =>
          andThen (issue (.div rx rx rb) t) (fun q =>
            match driverToTextLoop rx rb rt fuel q with
            | .next (chars, z) => .next (digitChar t.res :: chars, z)
            | .fault r => .fault r
            | .refused r => .refused r)))

/-- `to_string` by commands: the text, most significant character first (R121). -/
def driverToText (rx rb rt : Reg) (base : TextBase) (s : State) : Host.Outcome (List Char × State) Fault Refusal :=
  andThen (issue (.ldn rb base.radix) s) (fun u =>
    match driverToTextLoop rx rb rt (powFuel u.cfg) u with
    | .next (chars, z) => .next (chars.reverse, z)
    | .fault r => .fault r
    | .refused r => .refused r)

/-- The host loop of `from_string`: Va accumulates, Vp is the place value, Vb the base, Vt scratch; the text comes last
character first (R121). The flag is false when the parse fails. -/
def driverFromTextLoop (ra rp rb rt : Reg) (radix : Nat) :
    List Char → State → Host.Outcome (Bool × State) Fault Refusal
  | [], s => .next (true, s)
  | ch :: rest, s =>
    match charDigit ch with
    | none => .next (false, s)
    | some d =>
      if radix ≤ d then .next (false, s)
      else
        andThen (issueAll [.ldn rt d, .mul rt rp rt, .add ra ra rt, .mul rp rp rb] s)
          (driverFromTextLoop ra rp rb rt radix rest)

/-- `from_string` by commands (R121). -/
def driverFromText (ra rp rb rt : Reg) (base : TextBase) (text : List Char) (s : State) :
    Host.Outcome (Bool × State) Fault Refusal :=
  andThen (issueAll [.zero ra, .ldn rp 1, .ldn rb base.radix] s)
    (driverFromTextLoop ra rp rb rt base.radix text.reverse)

end Sys2Proof.Machine
end

