-- ==== Sys2Proof/Machine/Port.lean ====
section
/-! DEFINITION. The command port of R23 and R24, one rising clock edge at a time. R24 places the model proper at the level of
accepted commands; this layer runs those commands behind the handshake, with a free latency and free responses while a command executes (log 6). -/

namespace Sys2Proof.Machine

/-- The input signals as sampled on a rising edge (R23). -/
structure Pins where
  rst : Bool
  cmdValid : Bool
  cmd : Command
deriving DecidableEq, Repr

/-- The block behind its port: which block it is (an index of the free values only, log 6), the state, the command accepted and
not yet answered with the cycles it still takes, the rsp_valid pulse, and how many commands were accepted. -/
structure Port where
  block : Nat
  core : State
  executing : Option (Command × Nat)
  rspValid : Bool
  accepted : Nat
deriving DecidableEq, Repr

/-- `cmd_ready`: 0 while a command is executing and while `rst` = 1 (R24, R140). -/
def Port.cmdReady (p : Port) (rst : Bool) : Bool := p.executing.isNone && !rst

/-- The circumstances of the command m that the free values of the port apply to (R149, log 6). -/
def Port.context (m : Command) (p : Port) : CommandContext :=
  { block := p.block, accepted := p.accepted, cfg := p.core.cfg, cw := m.cw, xa := m.xa, xb := m.xb, v := p.core.v,
    res := p.core.res, st := p.core.st }

/-- The cycles beyond the first that the command m takes when this port accepts it (R24, R149). -/
def Port.extraCycles (m : Command) (p : Port) : Nat := Config.extraCycles (p.context m)

/-- `rsp_res`, K bits: RES when no command is executing; while one executes R23 gives no value, and the signal carries a free
value (DESIGN CHOICE, log 6). -/
def Port.rspRes (p : Port) : Nat :=
  match p.executing with
  | none => p.core.res
  | some (m, k) => Config.busyRes (p.context m) k % 2 ^ p.core.cfg.K

/-- `rsp_st`: ST when no command is executing; while one executes R23 gives no value, and the signal carries a free value
(DESIGN CHOICE, log 6). -/
def Port.rspSt (p : Port) : StatusWord :=
  match p.executing with
  | none => p.core.st
  | some (m, k) => Config.busySt (p.context m) k

/-- The port of a block right after reset (R21, R140). -/
def Port.resetOf (block : Nat) (c : Config) : Port :=
  { block := block, core := State.resetOf c [], executing := none, rspValid := false, accepted := 0 }

/-- The response of a command: its whole effect, and the pulse (R24, R31). -/
def Port.answer (m : Command) (p : Port) : Host.Outcome Port Fault Refusal :=
  match runCommand m p.core with
  | .next t => .next { p with core := t, executing := none, rspValid := true }
  | .fault r => .fault r
  | .refused r => .refused r

/-- The acceptance of a command: its triple is sampled on this edge and not looked at again (R24, R146). -/
def Port.accept (m : Command) (p : Port) : Port :=
  { p with executing := some (m, p.extraCycles m), rspValid := false, accepted := p.accepted + 1 }

/-- One rising edge: reset first, abandoning a command in flight (R140, R141); then the command in flight; then acceptance. -/
def Port.edge (pins : Pins) (p : Port) : Host.Outcome Port Fault Refusal :=
  if pins.rst then .next { p with core := p.core.applyReset, executing := none, rspValid := false }
  else
    match p.executing with
    | some (m, 0) => p.answer m
    | some (m, k + 1) => .next { p with executing := some (m, k), rspValid := false }
    | none => if pins.cmdValid then .next (p.accept pins.cmd) else .next { p with rspValid := false }

/-- A sequence of rising edges. -/
def Port.edges : List Pins → Port → Host.Outcome Port Fault Refusal
  | [], p => .next p
  | pins :: rest, p =>
    match p.edge pins with
    | .next q => Port.edges rest q
    | .fault r => .fault r
    | .refused r => .refused r

end Sys2Proof.Machine
end

