-- ==== Sys2Proof/Safety.lean ====
section
/-! DEFINITION. What holds of every state that a run from reset reaches, in the terms that claims use. -/

namespace Sys2Proof.Machine

/-- The digit invariant of R8: every value register holds N digits, each in [0, M]. -/
abbrev State.DigitsOk (s : State) : Prop := ∀ r : Reg, ArrayOk s.cfg (s.reg r)

/-- ST[2:0] is 000 (no CMP since reset) or has exactly one bit set (R16). -/
abbrev CompareOneHot (st : StatusWord) : Prop :=
  st.extractLsb' 0 3 = 0#3 ∨ ∃ o : Ordering, st.extractLsb' 0 3 = compareCode o

/-- The invariant of the machine: the digit invariant (R8), RES a K-bit word (R15), ST[2:0] as R16 says. -/
structure State.Inv (s : State) : Prop where
  digits : s.DigitsOk
  resFits : s.res < 2 ^ s.cfg.K
  oneHot : CompareOneHot s.st

/-- No illegal command since reset: the premise under which R45 lets a claim be stated. -/
abbrev State.Clean (s : State) : Prop := stILL s.st = false

/-- The frame of a command that writes V[rd]: RES, ST, the parameters, the host's inputs and every other register stay (R14). -/
def OnlyReg (rd : Reg) (s t : State) : Prop :=
  t.cfg = s.cfg ∧ t.input = s.input ∧ t.res = s.res ∧ t.st = s.st ∧ ∀ q, q ≠ rd → t.reg q = s.reg q

/-- The frame of a command that writes RES (R15). -/
def OnlyRes (s t : State) : Prop :=
  t.cfg = s.cfg ∧ t.input = s.input ∧ t.st = s.st ∧ ∀ q, t.reg q = s.reg q

/-- The frame of a command that writes ST.LT, ST.EQ and ST.GT (R16). -/
def OnlyCompareBits (s t : State) : Prop :=
  t.cfg = s.cfg ∧ t.input = s.input ∧ t.res = s.res ∧ stILL t.st = stILL s.st ∧ ∀ q, t.reg q = s.reg q

/-- The frame of the one error outcome: only ST.ILL may change (R127). -/
def OnlyIll (s t : State) : Prop :=
  t.cfg = s.cfg ∧ t.input = s.input ∧ t.res = s.res ∧ (∀ q, t.reg q = s.reg q) ∧
    stLT t.st = stLT s.st ∧ stEQ t.st = stEQ s.st ∧ stGT t.st = stGT s.st

/-- The commands that write RES (R15). -/
def writesRes : Instr → Bool
  | .stn _ | .getd _ _ | .msd _ => true
  | .zero _ | .ldn _ _ | .mov _ _ | .setd _ _ _ | .cmp _ _ => false
  | .add _ _ _ | .sub _ _ _ | .mul _ _ _ | .div _ _ _ | .mod _ _ _ | .pow _ _ _ => false

/-- The command that writes ST[2:0] (R16). -/
def writesCompare : Instr → Bool
  | .cmp _ _ => true
  | .stn _ | .getd _ _ | .msd _ | .zero _ | .ldn _ _ | .mov _ _ | .setd _ _ _ => false
  | .add _ _ _ | .sub _ _ _ | .mul _ _ _ | .div _ _ _ | .mod _ _ _ | .pow _ _ _ => false

/-- The same command on renamed registers. -/
def Instr.rename (f : Reg → Reg) : Instr → Instr
  | .zero rd => .zero (f rd)
  | .ldn rd x => .ldn (f rd) x
  | .mov rd rs1 => .mov (f rd) (f rs1)
  | .stn rs1 => .stn (f rs1)
  | .getd rs1 p => .getd (f rs1) p
  | .setd rd p x => .setd (f rd) p x
  | .msd rs1 => .msd (f rs1)
  | .add rd rs1 rs2 => .add (f rd) (f rs1) (f rs2)
  | .sub rd rs1 rs2 => .sub (f rd) (f rs1) (f rs2)
  | .mul rd rs1 rs2 => .mul (f rd) (f rs1) (f rs2)
  | .div rd rs1 rs2 => .div (f rd) (f rs1) (f rs2)
  | .mod rd rs1 rs2 => .mod (f rd) (f rs1) (f rs2)
  | .pow rd rs1 rs2 => .pow (f rd) (f rs1) (f rs2)
  | .cmp rs1 rs2 => .cmp (f rs1) (f rs2)

/-- The state with the contents of the registers moved along a renaming: register `σ r` holds what r held. -/
def State.rename (σ : Equiv.Perm Reg) (s : State) : State := { s with v := Vector.ofFn (fun r => s.reg (σ.symm r)) }

/-- A state that some number of steps leads to. -/
inductive Reaches (s : State) : State → Prop where
  | refl : Reaches s s
  | tail {t u : State} : Reaches s t → step t = .next u → Reaches s u

end Sys2Proof.Machine
end

