-- ==== Sys2Proof/Certificates/Slice0/Obligations.lean ====
section
/-! DEFINITION. The statements for the provers, from the numbered rules of spec/. Every one is for all instances (W, N, M, K). -/

open Sys2Proof Sys2Proof.Machine

/-! ### Encoding (spec/30_encoding.md) -/

/-- R48: the worked encodings decode to the instructions they stand for, and the illegal examples do not decode. -/
def Obligations.WorkedEncodingsDecode : Prop :=
  decode ⟨0x8312, 0, 0⟩ = .ok (.add 3 1 2) ∧ decode ⟨0xB312, 0, 0⟩ = .ok (.div 3 1 2) ∧
  decode ⟨0x2100, 1000, 0⟩ = .ok (.ldn 1 1000) ∧ decode ⟨0x6100, 3, 12⟩ = .ok (.setd 1 3 12) ∧
  decode ⟨0x50A0, 0, 0⟩ = .ok (.getd 10 0) ∧ decode ⟨0xE061, 0, 0⟩ = .ok (.cmp 6 1) ∧
  decode ⟨0x3F00, 0, 0⟩ = .ok (.mov 15 0) ∧ decode ⟨0x1000, 0, 0⟩ = .ok (.zero 0) ∧
  decode ⟨0x4030, 0, 0⟩ = .ok (.stn 3) ∧ decode ⟨0x7010, 0, 0⟩ = .ok (.msd 1) ∧
  decode ⟨0x0000, 0, 0⟩ = .error .reservedOpcode ∧ decode ⟨0xFFFF, 0, 0⟩ = .error .reservedOpcode ∧
  decode ⟨0x1101, 0, 0⟩ = .error .nonzeroUnusedField ∧ decode ⟨0x4130, 0, 0⟩ = .error .nonzeroUnusedField ∧
  decode ⟨0xE112, 0, 0⟩ = .error .nonzeroUnusedField ∧ decode ⟨0x3121, 0, 0⟩ = .error .nonzeroUnusedField

/-- R43: `decode(encode(c)) = c` for every command, every register operand and every scalar. -/
def Obligations.DecodeOfEncode : Prop :=
  ∀ i : Instr, decode (encode i) = .ok i

/-- R43: `encode(decode(cw)) = cw` for every legal word, whatever scalars are presented with it. -/
def Obligations.EncodeOfDecode : Prop :=
  ∀ (m : Command) (i : Instr), decode m = .ok i → (encode i).cw = m.cw

/-- R37, R42: a word that decodes selects exactly one row of the opcode map, its own; a word that does not decode selects none. -/
def Obligations.DecodeAgreesWithOpcodeRows : Prop :=
  ∀ m : Command,
    (∀ i, decode m = .ok i → ∃ row, opcodeRows.filter (fun r => r.selects m.cw) = [row] ∧ row.mnemonic = i.mnemonic) ∧
    (∀ e, decode m = .error e → opcodeRows.filter (fun r => r.selects m.cw) = [])

/-- R40: an ignored scalar affects neither the decoded instruction nor legality: xb matters to SETD alone, xa to LDN, GETD and
SETD. -/
def Obligations.IgnoredScalarsDoNotMatter : Prop :=
  ∀ (cw : CommandWord) (xa xb xa' xb' : Nat),
    (opField cw ≠ 0x6#4 → decode ⟨cw, xa, xb⟩ = decode ⟨cw, xa, xb'⟩) ∧
    (opField cw ≠ 0x2#4 → opField cw ≠ 0x5#4 → opField cw ≠ 0x6#4 → decode ⟨cw, xa, xb⟩ = decode ⟨cw, xa', xb'⟩) ∧
    ((∃ i, decode ⟨cw, xa, xb⟩ = .ok i) ↔ ∃ i, decode ⟨cw, xa', xb'⟩ = .ok i)

/-- R47: the line written for an instruction assembles to it (the lexical form is the model's, log 18). -/
def Obligations.AssembleOfDisassemble : Prop :=
  ∀ i : Instr, assembleLine (disassemble i) = .command i

/-! ### The step (spec/10_state.md, 20_memory.md, 60_exceptions.md, 70_reset_and_hazards.md) -/

/-- R10, R31: when the host's next command decodes to an instruction of the instance, the step is that instruction, the command
taken off the host's inputs and nothing else done around it; with no input left nothing happens (R144). That the host's inputs
are a queue in State is the model's choice (log 3). -/
def Obligations.StepRunsDecodedInstruction : Prop :=
  ∀ (s : State) (m : Command) (i : Instr) (rest : List HostEvent),
    (s.input = .command m :: rest → decode m = .ok i → i.wf s.cfg = true → step s = exec i (s.afterInput rest)) ∧
    (s.input = [] → step s = .next s)

/-- R45, R127: an illegal word, with any scalars, sets ST.ILL and changes nothing else; the block does not stop. -/
def Obligations.IllegalWordSetsIllOnly : Prop :=
  ∀ (s : State) (m : Command) (e : DecodeError) (rest : List HostEvent),
    s.input = .command m :: rest → decode m = .error e →
    ∃ t, step s = .next t ∧ stILL t.st = true ∧ OnlyIll (s.afterInput rest) t

/-- R16, R131: ST.ILL, once 1, is kept by every step but the reset event; it becomes 1 by an illegal word only. -/
def Obligations.IllIsStickyAndSetByIllegalWordsOnly : Prop :=
  ∀ s t : State, step s = .next t →
    (stILL s.st = true → s.input.head? ≠ some .reset → stILL t.st = true) ∧
    (stILL s.st = false → stILL t.st = true → ∃ m e, s.input.head? = some (.command m) ∧ decode m = .error e)

/-- R21: after the reset event, from any state, every digit of every register is 0, RES = 0 and ST = 0000. -/
def Obligations.ResetEventClearsState : Prop :=
  ∀ (s : State) (rest : List HostEvent), s.input = .reset :: rest →
    ∃ t, step s = .next t ∧ t.cfg = s.cfg ∧ t.input = rest ∧ t.res = 0 ∧ t.st = 0#4 ∧
      ∀ r, (t.reg r).length = s.cfg.N ∧ ∀ x ∈ t.reg r, x = 0

/-- R137(a), (c): every instruction completes in every state, but for POW in the configuration with CAP = 2, which is refused. -/
def Obligations.EveryInstructionCompletes : Prop :=
  ∀ (i : Instr) (s : State),
    (¬((∃ rd rs1 rs2, i = .pow rd rs1 rs2) ∧ s.cfg.CAP = 2) → ∃ t, exec i s = .next t) ∧
    ((∃ rd rs1 rs2, i = .pow rd rs1 rs2) → s.cfg.CAP = 2 → exec i s = .refused .twoNotRepresentable)

/-- R137 and log 4: a step is refused only for POW with CAP = 2, or for a scalar that the K-bit port cannot carry. -/
def Obligations.StepRefusesOnlyNamedCases : Prop :=
  ∀ (s : State) (why : Refusal), step s = .refused why →
    ∃ m i rest, s.input = .command m :: rest ∧ decode m = .ok i ∧
      ((why = .twoNotRepresentable ∧ (∃ rd rs1 rs2, i = .pow rd rs1 rs2) ∧ s.cfg.CAP = 2) ∨
       (why = .scalarTooWide ∧ i.wf s.cfg = false))

/-- The invariant of the machine (R8, R15, R16) is kept by every step, from every state that has it. -/
def Obligations.StepKeepsInvariant : Prop :=
  ∀ s t : State, s.Inv → step s = .next t → t.Inv

/-- The state after reset has the invariant, for every instance and whatever the host presents. -/
def Obligations.ResetHasInvariant : Prop :=
  State.reset.Inv ∧ ∀ (c : Config) (input : List HostEvent), (State.resetOf c input).Inv

/-- R8: whatever the host presents after reset, every digit of every register is in [0, M] in every state that is reached. -/
def Obligations.ReachableDigitsBelowBase : Prop :=
  ∀ (c : Config) (input : List HostEvent) (t : State), Reaches (State.resetOf c input) t →
    t.cfg = c ∧ ∀ r, (t.reg r).length = c.N ∧ ∀ x ∈ t.reg r, x ≤ c.M

/-- R4, R17: a step never changes the parameters, and takes exactly one input of the host (both fields are the model's, log 1
and log 3). -/
def Obligations.StepKeepsParametersAndTakesOneInput : Prop :=
  ∀ s t : State, step s = .next t → t.cfg = s.cfg ∧ t.input = s.input.tail

/-- R15: RES is written by STN, GETD and MSD only, each of which overwrites all of it with a K-bit word; no command reads it as
an operand. -/
def Obligations.ResWrittenByScalarCommandsAndNeverRead : Prop :=
  (∀ (s t : State) (m : Command) (rest : List HostEvent), s.input = .command m :: rest → step s = .next t →
    (∀ i, decode m = .ok i → writesRes i = false) → t.res = s.res) ∧
  (∀ (i : Instr) (s t : State) (x : Nat), exec i s = .next t →
    (writesRes i = true → t.res < 2 ^ s.cfg.K ∧ exec i { s with res := x } = .next t) ∧
    (writesRes i = false → exec i { s with res := x } = .next { t with res := x }))

/-- R16, R126, R138: ST[2:0] is written by CMP only; no instruction's effect depends on ST. -/
def Obligations.CompareBitsWrittenByCmpAndStatusNeverRead : Prop :=
  ∀ (i : Instr) (s t : State) (y : StatusWord), exec i s = .next t →
    (writesCompare i = false → t.st = s.st ∧ exec i { s with st := y } = .next { t with st := y }) ∧
    (writesCompare i = true → ∃ u, exec i { s with st := y } = .next u ∧ stLT u.st = stLT t.st ∧ stEQ u.st = stEQ t.st ∧
      stGT u.st = stGT t.st ∧ stILL u.st = stILL y)

/-- R31: the state after commands c1, ..., cn is `step(cn, ... step(c1, s0))`: the machine's run over the host's queue is the
commands carried out in order (the queue is the model's, log 3). -/
def Obligations.RunIsCommandsInOrder : Prop :=
  ∀ (ms : List Command) (s : State) (rest : List HostEvent), s.input = ms.map .command ++ rest →
    Sys2Proof.core.run ms.length s = runCommands ms (s.afterInput rest)

/-- R14: the 16 registers are interchangeable, V0 included: a command on renamed registers does to the renamed state what the
command does. -/
def Obligations.RegistersAreInterchangeable : Prop :=
  ∀ (σ : Equiv.Perm Reg) (i : Instr) (s : State),
    (∀ t, exec i s = .next t → exec (Instr.rename σ i) (s.rename σ) = .next (t.rename σ)) ∧
    (∀ why, exec i s = .refused why → exec (Instr.rename σ i) (s.rename σ) = .refused why)

/-- R12: every number in 0 .. CAP-1, and no other, is the value of exactly one digit array. -/
def Obligations.EveryValueHasOneRepresentation : Prop :=
  ∀ (c : Config) (n : Nat), (∃! d : DigitArray, ArrayOk c d ∧ val c.B d = n) ↔ n < c.CAP

/-- R13: in the N*W-bit packing of a register, bits (N-i)*W-1 down to (N-1-i)*W hold the digit of storage index i. -/
def Obligations.PackedRegisterHoldsDigits : Prop :=
  ∀ (c : Config) (d : DigitArray) (i x : Nat), ArrayOk c d → d[i]? = some x →
    (pack c.W d).extractLsb' ((c.N - 1 - i) * c.W) c.W = BitVec.ofNat c.W x ∧ x < 2 ^ c.W

/-- R36, R135: in a system of any number of instances, any interleaving of the host's inputs, resets of single instances among
them, leaves each instance with what its own inputs alone lead it to, as if the others did not exist; an instance whose first
input is its own reset starts at its reset state. That a refused instance stays refused while the others go on is the model's
choice (log 24). -/
def Obligations.InstancesDoNotInterfere : Prop :=
  ∀ (n : Nat) (l : List (Fin n × HostEvent)) (sys : Instances n) (k : Fin n),
    (Instances.run l sys)[k] = andThen sys[k] (runEvents (eventsOf k l)) ∧
    ∀ s es, sys[k] = .next s → eventsOf k l = .reset :: es →
      (Instances.run l sys)[k] = runEvents es (State.resetOf s.cfg s.input)

/-! ### The digit-array commands (spec/40_digit_array.md) -/

/-- R54: ZERO. -/
def Obligations.ZeroClearsRegister : Prop :=
  ∀ (s : State) (rd : Reg) (xa xb : Nat), decode ⟨formatC 0x1 rd 0 0, xa, xb⟩ = .ok (.zero rd) ∧
    ∃ t, exec (.zero rd) s = .next t ∧ (t.reg rd).length = s.cfg.N ∧ (∀ x ∈ t.reg rd, x = 0) ∧ OnlyReg rd s t

/-- R55: LDN. -/
def Obligations.LdnDecomposesScalar : Prop :=
  ∀ (s : State) (rd : Reg) (x xb : Nat), decode ⟨formatC 0x2 rd 0 0, x, xb⟩ = .ok (.ldn rd x) ∧
    ∃ t, exec (.ldn rd x) s = .next t ∧ ArrayOk s.cfg (t.reg rd) ∧
      (∀ p, p < s.cfg.N → dig (t.reg rd) p = (x / s.cfg.B ^ p) % s.cfg.B) ∧
      val s.cfg.B (t.reg rd) = x % s.cfg.CAP ∧ OnlyReg rd s t

/-- R56: MOV. -/
def Obligations.MovCopiesRegister : Prop :=
  ∀ (s : State) (rd rs1 : Reg) (xa xb : Nat), decode ⟨formatC 0x3 rd rs1 0, xa, xb⟩ = .ok (.mov rd rs1) ∧
    ∃ t, exec (.mov rd rs1) s = .next t ∧ t.reg rd = s.reg rs1 ∧ OnlyReg rd s t ∧ (rd = rs1 → t = s)

/-- R57: STN; with CAP at most 2^K the value always fits. -/
def Obligations.StnReturnsValueModuloWord : Prop :=
  ∀ (s : State) (rs1 : Reg) (xa xb : Nat), decode ⟨formatC 0x4 0 rs1 0, xa, xb⟩ = .ok (.stn rs1) ∧
    ∃ t, exec (.stn rs1) s = .next t ∧ t.res = val s.cfg.B (s.reg rs1) % 2 ^ s.cfg.K ∧ OnlyRes s t ∧
      (ArrayOk s.cfg (s.reg rs1) → s.cfg.CAP ≤ 2 ^ s.cfg.K → t.res = val s.cfg.B (s.reg rs1))

/-- R58: GETD, every power, stored or not. -/
def Obligations.GetdReadsDigitOrZero : Prop :=
  ∀ (s : State) (rs1 : Reg) (p xb : Nat), s.DigitsOk → decode ⟨formatC 0x5 0 rs1 0, p, xb⟩ = .ok (.getd rs1 p) ∧
    ∃ t, exec (.getd rs1 p) s = .next t ∧ OnlyRes s t ∧
      (p < s.cfg.N → (s.reg rs1)[s.cfg.N - 1 - p]? = some t.res ∧ t.res = val s.cfg.B (s.reg rs1) / s.cfg.B ^ p % s.cfg.B) ∧
      (s.cfg.N ≤ p → t.res = 0)

/-- R59: SETD, every power, stored or not. -/
def Obligations.SetdWritesDigitOrNothing : Prop :=
  ∀ (s : State) (rd : Reg) (p x : Nat), s.DigitsOk → decode ⟨formatC 0x6 rd 0 0, p, x⟩ = .ok (.setd rd p x) ∧
    ∃ t, exec (.setd rd p x) s = .next t ∧ ArrayOk s.cfg (t.reg rd) ∧ OnlyReg rd s t ∧
      (p < s.cfg.N → dig (t.reg rd) p = x % s.cfg.B ∧ ∀ q, q ≠ p → dig (t.reg rd) q = dig (s.reg rd) q) ∧
      (s.cfg.N ≤ p → t = s)

/-- R60 with R52: MSD, 0 exactly for the zero value, otherwise the number of significant digits. -/
def Obligations.MsdCountsSignificantDigits : Prop :=
  ∀ (s : State) (rs1 : Reg) (xa xb : Nat), s.DigitsOk → decode ⟨formatC 0x7 0 rs1 0, xa, xb⟩ = .ok (.msd rs1) ∧
    ∃ t, exec (.msd rs1) s = .next t ∧ OnlyRes s t ∧ t.res ≤ s.cfg.N ∧
      (t.res = 0 ↔ val s.cfg.B (s.reg rs1) = 0) ∧
      (0 < val s.cfg.B (s.reg rs1) → s.cfg.B ^ (t.res - 1) ≤ val s.cfg.B (s.reg rs1) ∧
        val s.cfg.B (s.reg rs1) < s.cfg.B ^ t.res)

/-! ### Arithmetic (spec/41_add_sub.md to 44_power_compare.md) -/

/-- R64 with R63: ADD. -/
def Obligations.AddWritesSumModuloCapacity : Prop :=
  ∀ (s : State) (rd rs1 rs2 : Reg) (xa xb : Nat), s.DigitsOk →
    decode ⟨formatC 0x8 rd rs1 rs2, xa, xb⟩ = .ok (.add rd rs1 rs2) ∧
    ∃ t, exec (.add rd rs1 rs2) s = .next t ∧ ArrayOk s.cfg (t.reg rd) ∧ OnlyReg rd s t ∧
      val s.cfg.B (t.reg rd) = (s.regVal rs1 + s.regVal rs2) % s.cfg.CAP

/-- R67 with R66: SUB, the mathematical (non-negative) mod. -/
def Obligations.SubWritesDifferenceModuloCapacity : Prop :=
  ∀ (s : State) (rd rs1 rs2 : Reg) (xa xb : Nat), s.DigitsOk →
    decode ⟨formatC 0x9 rd rs1 rs2, xa, xb⟩ = .ok (.sub rd rs1 rs2) ∧
    ∃ t, exec (.sub rd rs1 rs2) s = .next t ∧ ArrayOk s.cfg (t.reg rd) ∧ OnlyReg rd s t ∧
      (val s.cfg.B (t.reg rd) : Int) = ((s.regVal rs1 : Int) - s.regVal rs2) % (s.cfg.CAP : Int)

/-- R72 with R70: MUL. -/
def Obligations.MulWritesProductModuloCapacity : Prop :=
  ∀ (s : State) (rd rs1 rs2 : Reg) (xa xb : Nat), s.DigitsOk →
    decode ⟨formatC 0xA rd rs1 rs2, xa, xb⟩ = .ok (.mul rd rs1 rs2) ∧
    ∃ t, exec (.mul rd rs1 rs2) s = .next t ∧ ArrayOk s.cfg (t.reg rd) ∧ OnlyReg rd s t ∧
      val s.cfg.B (t.reg rd) = s.regVal rs1 * s.regVal rs2 % s.cfg.CAP

/-- R85 with R75 and R88: DIV writes the floor quotient, and zero for a zero divisor. -/
def Obligations.DivWritesFloorQuotient : Prop :=
  ∀ (s : State) (rd rs1 rs2 : Reg) (xa xb : Nat), s.DigitsOk →
    decode ⟨formatC 0xB rd rs1 rs2, xa, xb⟩ = .ok (.div rd rs1 rs2) ∧
    ∃ t, exec (.div rd rs1 rs2) s = .next t ∧ ArrayOk s.cfg (t.reg rd) ∧ OnlyReg rd s t ∧
      (s.regVal rs2 ≠ 0 → val s.cfg.B (t.reg rd) * s.regVal rs2 ≤ s.regVal rs1 ∧
        s.regVal rs1 < (val s.cfg.B (t.reg rd) + 1) * s.regVal rs2) ∧
      (s.regVal rs2 = 0 → val s.cfg.B (t.reg rd) = 0)

/-- R86 with R76 and R88: MOD writes the remainder, and zero for a zero divisor. -/
def Obligations.ModWritesRemainder : Prop :=
  ∀ (s : State) (rd rs1 rs2 : Reg) (xa xb : Nat), s.DigitsOk →
    decode ⟨formatC 0xC rd rs1 rs2, xa, xb⟩ = .ok (.mod rd rs1 rs2) ∧
    ∃ t, exec (.mod rd rs1 rs2) s = .next t ∧ ArrayOk s.cfg (t.reg rd) ∧ OnlyReg rd s t ∧
      (s.regVal rs2 ≠ 0 → val s.cfg.B (t.reg rd) = s.regVal rs1 % s.regVal rs2) ∧
      (s.regVal rs2 = 0 → val s.cfg.B (t.reg rd) = 0)

/-- R92 with R90: POW in every configuration with CAP >= 3. That exponent zero gives 1, for base zero too, is general knowledge
in R90 (G4, log 8). -/
def Obligations.PowWritesPowerModuloCapacity : Prop :=
  ∀ (s : State) (rd rs1 rs2 : Reg) (xa xb : Nat), s.DigitsOk → 3 ≤ s.cfg.CAP →
    decode ⟨formatC 0xD rd rs1 rs2, xa, xb⟩ = .ok (.pow rd rs1 rs2) ∧
    ∃ t, exec (.pow rd rs1 rs2) s = .next t ∧ ArrayOk s.cfg (t.reg rd) ∧ OnlyReg rd s t ∧
      val s.cfg.B (t.reg rd) = s.regVal rs1 ^ s.regVal rs2 % s.cfg.CAP

/-- R93: POW is refused in the one configuration with CAP = 2, a single binary digit, and every other command has its effect
there. -/
def Obligations.PowRefusedWhenTwoNotRepresentable : Prop :=
  ∀ (s : State) (rd rs1 rs2 : Reg), (s.cfg.CAP = 2 ↔ s.cfg.N = 1 ∧ s.cfg.M = 1) ∧
    (s.cfg.CAP = 2 → exec (.pow rd rs1 rs2) s = .refused .twoNotRepresentable) ∧
    ∀ i : Instr, s.cfg.CAP = 2 → (∀ d a b, i ≠ .pow d a b) → ∃ t, exec i s = .next t

/-- R95 with R94: CMP sets exactly one of LT, EQ, GT, by the numeric order; EQ is equality of the digit sequences. -/
def Obligations.CmpSetsOneStatusBit : Prop :=
  ∀ (s : State) (rs1 rs2 : Reg) (xa xb : Nat), s.DigitsOk →
    decode ⟨formatC 0xE 0 rs1 rs2, xa, xb⟩ = .ok (.cmp rs1 rs2) ∧
    ∃ t, exec (.cmp rs1 rs2) s = .next t ∧ OnlyCompareBits s t ∧
      (stLT t.st = true ↔ s.regVal rs1 < s.regVal rs2) ∧
      (stEQ t.st = true ↔ s.reg rs1 = s.reg rs2) ∧
      (stGT t.st = true ↔ s.regVal rs2 < s.regVal rs1) ∧
      (s.reg rs1 = s.reg rs2 ↔ s.regVal rs1 = s.regVal rs2)

/-! ### Laws over several commands, and the schedules -/

/-- R62(e), (f): after `LDN rd, #x`, GETD returns the base-B digits of x, and STN returns x when x is below CAP and below 2^K. -/
def Obligations.LdnReadsBack : Prop :=
  ∀ (s : State) (rd : Reg) (x p : Nat), x < 2 ^ s.cfg.K →
    (p < s.cfg.N → ∃ t, issueAll [.ldn rd x, .getd rd p] s = .next t ∧ t.res = (x / s.cfg.B ^ p) % s.cfg.B) ∧
    (x < s.cfg.CAP → ∃ t, issueAll [.ldn rd x, .stn rd] s = .next t ∧ t.res = x)

/-- R68: SUB undoes ADD and ADD undoes SUB, wraps included, when the second operand is not overwritten. -/
def Obligations.AddAndSubUndoEachOther : Prop :=
  ∀ (s : State) (rd rs1 rs2 : Reg), s.DigitsOk → rd ≠ rs2 →
    (∃ t, issueAll [.add rd rs1 rs2, .sub rd rd rs2] s = .next t ∧ t.reg rd = s.reg rs1) ∧
    (∃ t, issueAll [.sub rd rs1 rs2, .add rd rd rs2] s = .next t ∧ t.reg rd = s.reg rs1)

/-- R87: quotient times divisor plus remainder is the dividend, computed by DIV, MOD, MUL and ADD. -/
def Obligations.DivisionIdentity : Prop :=
  ∀ (s : State) (q r a b : Reg), s.DigitsOk → q ≠ r → q ≠ a → q ≠ b → r ≠ a → r ≠ b → s.regVal b ≠ 0 →
    ∃ t, issueAll [.div q a b, .mod r a b, .mul q q b, .add q q r] s = .next t ∧ t.reg q = s.reg a ∧
      t.regVal r < s.regVal b

/-- R65, R68, R73: the addition and multiplication of digit arrays are those of the integers modulo CAP. -/
def Obligations.ArraysFormCommutativeRing : Prop :=
  ∀ (c : Config) (x y z : DigitArray), ArrayOk c x → ArrayOk c y → ArrayOk c z →
    addArrays c x y = addArrays c y x ∧ addArrays c (addArrays c x y) z = addArrays c x (addArrays c y z) ∧
    addArrays c x (arr c 0) = x ∧ subArrays c x x = arr c 0 ∧
    subArrays c x y = addArrays c x (subArrays c (arr c 0) y) ∧
    mulArrays c x y = mulArrays c y x ∧ mulArrays c (mulArrays c x y) z = mulArrays c x (mulArrays c y z) ∧
    mulArrays c x (arr c 1) = x ∧ mulArrays c x (arr c 0) = arr c 0 ∧
    mulArrays c x (addArrays c y z) = addArrays c (mulArrays c x y) (mulArrays c x z) ∧
    mulArrays c x (subArrays c y z) = subArrays c (mulArrays c x y) (mulArrays c x z)

/-- R65, R68: the discarded carry and borrow are 1 exactly when the helper predicates hold. -/
def Obligations.DiscardedCarryAndBorrow : Prop :=
  ∀ (c : Config) (x y : DigitArray), ArrayOk c x → ArrayOk c y →
    (addWithCarry c.B x y).2 ≤ 1 ∧ ((addWithCarry c.B x y).2 = 1 ↔ addOverflows c x y) ∧
    (subWithBorrow c.B x y).2 ≤ 1 ∧ ((subWithBorrow c.B x y).2 = 1 ↔ subUnderflows c x y)

/-- R71, R74: in every row of the multiplier the term t is at most B*B - 1 and the carry is one digit. -/
def Obligations.MultiplierTermFitsTwoDigits : Prop :=
  ∀ (c : Config) (a b : DigitArray) (i j : Nat), ArrayOk c a → ArrayOk c b →
    (mulRow c.B a (dig b j) j (mulRows c.B a b j) i).2 ≤ c.M ∧
    mulTerm a (dig b j) j (mulRow c.B a (dig b j) j (mulRows c.B a b j) i).1 i
      (mulRow c.B a (dig b j) j (mulRows c.B a b j) i).2 ≤ c.B * c.B - 1

/-- R78, R79, R84: on operands that reach the general algorithm, the scaled divisor keeps n digits with a leading digit of at least
B div 2, and the divider ends with the working dividend at f times the remainder. The normalization factor f is Knuth's, which
R78 supplies from general knowledge and not from the source (G1, G3); running this schedule is the model's choice (log 7). -/
def Obligations.AlgorithmDNormalizesAndLeavesScaledRemainder : Prop :=
  ∀ (c : Config) (a b : DigitArray) (f : Nat) (U D : List Nat), ArrayOk c a → ArrayOk c b → 2 ≤ val c.B b →
    val c.B b < val c.B a → f = scaleFactor c.B (dig b (msd b - 1)) → U = scale c.B f a.reverse →
    D = scale c.B f b.reverse →
    (∀ p, msd b ≤ p → D.getD p 0 = 0) ∧ c.B / 2 ≤ D.getD (msd b - 1) 0 ∧
    Nat.ofDigits c.B (divLoop c.B (D.take (msd b)) (msd a - msd b + 1) U).2 = f * (val c.B a % val c.B b)

/-- R96: the comparison is a strong total order on the values of an instance, and EQ is identity. -/
def Obligations.ComparisonIsStrongTotalOrder : Prop :=
  ∀ (c : Config) (x y z : DigitArray), ArrayOk c x → ArrayOk c y → ArrayOk c z →
    (cmpArrays x y = .lt ↔ cmpArrays y x = .gt) ∧ (cmpArrays x y = .eq ↔ x = y) ∧
    (cmpArrays x y = .lt → cmpArrays y z = .lt → cmpArrays x z = .lt) ∧
    (cmpArrays x y = .lt ↔ val c.B x < val c.B y)

/-- R96: after a CMP the six relational operators, read from ST[2:0], are those of the values. -/
def Obligations.RelationalOperatorsReadFromStatus : Prop :=
  ∀ (s : State) (rs1 rs2 : Reg), s.DigitsOk → ∃ t, exec (.cmp rs1 rs2) s = .next t ∧
    (relEq t.st = true ↔ s.regVal rs1 = s.regVal rs2) ∧ (relNe t.st = true ↔ s.regVal rs1 ≠ s.regVal rs2) ∧
    (relLt t.st = true ↔ s.regVal rs1 < s.regVal rs2) ∧ (relLe t.st = true ↔ s.regVal rs1 ≤ s.regVal rs2) ∧
    (relGt t.st = true ↔ s.regVal rs2 < s.regVal rs1) ∧ (relGe t.st = true ↔ s.regVal rs2 ≤ s.regVal rs1)

/-! ### The command port (spec/10_state.md R23, R24) -/

/-- R24: a command accepted by an idle port is answered after one cycle and the free extra ones, whatever the other pins do
without reset; until then the port is not ready, and at the answer the registers and the response are those of the command. The
latency and the response signals before the answer are free values, and that the state changes at the answer is the model's
choice (log 6). -/
def Obligations.PortAnswersAcceptedCommand : Prop :=
  ∀ (p : Port) (m : Command) (t : State) (pins : List Pins), p.executing = none → runCommand m p.core = .next t →
    (∀ x ∈ pins, x.rst = false) →
    (pins.length = p.extraCycles m + 1 →
      ∃ q, Port.edges (⟨false, true, m⟩ :: pins) p = .next q ∧ q.core = t ∧ q.rspValid = true ∧ q.executing = none ∧
        q.rspRes = t.res ∧ q.rspSt = t.st) ∧
    (pins.length ≤ p.extraCycles m →
      ∃ q, Port.edges (⟨false, true, m⟩ :: pins) p = .next q ∧ q.core = p.core ∧ q.rspValid = false ∧
        q.cmdReady false = false)

/-- R140, R141: on an edge with rst = 1 the state becomes the reset state, a command in flight is abandoned without a response. -/
def Obligations.PortResetAbandonsCommand : Prop :=
  ∀ (p : Port) (pins : Pins), pins.rst = true → p.cmdReady pins.rst = false ∧
    ∃ q, p.edge pins = .next q ∧ q.core = State.resetOf p.core.cfg p.core.input ∧ q.executing = none ∧ q.rspValid = false

/-! ### The surrounding software (spec/46_signed_wrapper.md, 47_string_codec.md) -/

/-- R104, R105: signed addition and subtraction are those of the integers while the result's magnitude is below CAP, and every
result is canonical. -/
def Obligations.SignedAddSubAreIntegerAddSub : Prop :=
  ∀ (c : Config) (x y : Signed), x.Canonical c → y.Canonical c →
    (sadd c x y).Canonical c ∧ (ssub c x y).Canonical c ∧
    ((x.toInt c + y.toInt c).natAbs < c.CAP → (sadd c x y).toInt c = x.toInt c + y.toInt c) ∧
    ((x.toInt c - y.toInt c).natAbs < c.CAP → (ssub c x y).toInt c = x.toInt c - y.toInt c)

/-- R106, R107, R108: signed division truncates toward zero, the remainder takes the dividend's sign, a zero divisor gives zero,
the product is the integers' while it fits, and the comparison is the integers'. -/
def Obligations.SignedMulDivModCmpAgreeWithIntegers : Prop :=
  ∀ (c : Config) (x y : Signed), x.Canonical c → y.Canonical c →
    ((x.toInt c * y.toInt c).natAbs < c.CAP → (smul c x y).toInt c = x.toInt c * y.toInt c) ∧
    (y.toInt c ≠ 0 → (sdiv c x y).toInt c = (x.toInt c).tdiv (y.toInt c) ∧
      (smod c x y).toInt c = (x.toInt c).tmod (y.toInt c)) ∧
    (y.toInt c = 0 → (sdiv c x y).toInt c = 0 ∧ (smod c x y).toInt c = 0) ∧
    scmp x y = compare (x.toInt c) (y.toInt c)

/-- R111: negation is an involution, a value and its negation add to zero, unary plus changes exactly the negative values, the
product commutes, and EQ is identity of pairs. -/
def Obligations.SignedWrapperLaws : Prop :=
  ∀ (c : Config) (x y : Signed), x.Canonical c → y.Canonical c →
    sneg c (sneg c x) = x ∧ sadd c x (sneg c x) = ⟨.pos, arr c 0⟩ ∧ (uplus x = x ↔ x.sign = .pos) ∧
    smul c x y = smul c y x ∧ (scmp x y = .eq ↔ x = y)

/-- R109, R111: a native signed integer whose magnitude N digits hold comes back as its own K-bit two's complement word (log 14);
the most negative one is left out, its magnitude being a free value (log 13). -/
def Obligations.NativeSignedRoundTrip : Prop :=
  ∀ (c : Config) (z : Int), mostNegative c < z → z < 2 ^ (c.K - 1) → z.natAbs < c.CAP →
    (fromSigned c z).Canonical c ∧ (fromSigned c z).toInt c = z ∧ toSignedWord c (fromSigned c z) = BitVec.ofInt c.K z

/-- R112: the host's procedures over the commands realise the signed wrapper. That they test for zero by MSD, after the ADD of equal
signs too, is the model's choice (log 26). -/
def Obligations.DriverRealisesSignedWrapper : Prop :=
  ∀ (s : State) (rd rx ry : Reg) (sx sy : Sign), s.DigitsOk →
    (∃ t g, driverSadd rd rx ry sx sy s = .next (g, t) ∧
      Signed.mk g (t.reg rd) = sadd s.cfg ⟨sx, s.reg rx⟩ ⟨sy, s.reg ry⟩) ∧
    (∃ t g, driverSmul rd rx ry sx sy s = .next (g, t) ∧
      Signed.mk g (t.reg rd) = smul s.cfg ⟨sx, s.reg rx⟩ ⟨sy, s.reg ry⟩) ∧
    (∃ t g, driverSdiv rd rx ry sx sy s = .next (g, t) ∧
      Signed.mk g (t.reg rd) = sdiv s.cfg ⟨sx, s.reg rx⟩ ⟨sy, s.reg ry⟩) ∧
    (∃ t g, driverSmod rd rx ry sx s = .next (g, t) ∧
      Signed.mk g (t.reg rd) = smod s.cfg ⟨sx, s.reg rx⟩ ⟨sy, s.reg ry⟩) ∧
    (∃ t o, driverScmp rx ry sx sy s = .next (o, t) ∧ o = scmp ⟨sx, s.reg rx⟩ ⟨sy, s.reg ry⟩)

/-- R61: widening keeps the value and every digit, and the host's ZERO, GETD, SETD loop realises it between two instances of one
base. -/
def Obligations.WideningKeepsValue : Prop :=
  ∀ (p : TwoInstances) (rs rd : Reg), p.left.DigitsOk → p.right.DigitsOk → p.left.cfg.W = p.right.cfg.W →
    p.left.cfg.M = p.right.cfg.M → p.left.cfg.N ≤ p.right.cfg.N →
    val p.left.cfg.B (widen p.right.cfg.N (p.left.reg rs)) = val p.left.cfg.B (p.left.reg rs) ∧
    (∀ k, dig (widen p.right.cfg.N (p.left.reg rs)) k = dig (p.left.reg rs) k) ∧
    ∃ q, driverWiden rs rd p = .next q ∧ q.right.reg rd = widen p.right.cfg.N (p.left.reg rs)

/-- R61: the same loop over the digits of a target with no more digits keeps the low ones, the value modulo the target's CAP. -/
def Obligations.NarrowingKeepsLowDigits : Prop :=
  ∀ (p : TwoInstances) (rs rd : Reg), p.left.DigitsOk → p.right.DigitsOk → p.left.cfg.W = p.right.cfg.W →
    p.left.cfg.M = p.right.cfg.M → p.right.cfg.N ≤ p.left.cfg.N →
    ∃ q, driverNarrow rs rd p = .next q ∧ ArrayOk p.right.cfg (q.right.reg rd) ∧
      val p.right.cfg.B (q.right.reg rd) = val p.left.cfg.B (p.left.reg rs) % p.right.cfg.CAP

/-- R118, R117: a text that is a valid numeral of n parses to n modulo CAP; the empty text parses to zero; a text with a character
that is no digit of the base is absent. -/
def Obligations.FromTextParsesNumerals : Prop :=
  ∀ (c : Config) (base : TextBase) (text : List Char), base.radix < c.CAP →
    (∀ n, numeral base.radix text = some n → fromText c base text = .ok (some (arr c n))) ∧
    (text = [] → fromText c base text = .ok (some (arr c 0))) ∧
    (∀ ch ∈ text, (∀ d, charDigit ch = some d → base.radix ≤ d) → fromText c base text = .ok none)

/-- R121, R115: `from_string(to_string(v, base), base) = v` for every value, zero included, whose text is empty. -/
def Obligations.TextRoundTrip : Prop :=
  ∀ (c : Config) (base : TextBase) (v : DigitArray), base.radix < c.CAP → ArrayOk c v →
    ∃ text, toText c base v = .ok text ∧ fromText c base text = .ok (some v) ∧ (text = [] ↔ val c.B v = 0)

/-- R121: the host's loops over the commands realise `to_string` and `from_string`, for a base that the scalar port carries. That the
`to_string` loop tests for zero by MSD is the model's choice (log 26). -/
def Obligations.DriverRealisesStringCodec : Prop :=
  ∀ (s : State) (base : TextBase) (ra rp rb rt : Reg), s.DigitsOk → base.radix < s.cfg.CAP → base.radix < 2 ^ s.cfg.K →
    ra ≠ rp → ra ≠ rb → ra ≠ rt → rp ≠ rb → rp ≠ rt → rb ≠ rt →
    (∃ text t, driverToText ra rb rt base s = .next (text, t) ∧ toText s.cfg base (s.reg ra) = .ok text) ∧
    ∀ text : List Char, ∃ parsed t, driverFromText ra rp rb rt base text s = .next (parsed, t) ∧
      fromText s.cfg base text = .ok (if parsed then some (t.reg ra) else none)

/-! ### The digit accessors (spec/40_digit_array.md R62) -/

/-- R62: the laws of dig, setdig, val, arr and msd. (a), (b), (d): a digit written reads back modulo B, the others stay, a power
past the stored width is neither read nor written, and the value moves by the change of that digit; (c): val is a bijection onto
0 .. CAP-1 with inverse arr; (g): msd of arr(n) is 0 for n = 0 only. (e) and (f), about commands, are LdnReadsBack. -/
def Obligations.DigitAccessorLaws : Prop :=
  ∀ (c : Config) (d : DigitArray) (p q x n : Nat), ArrayOk c d →
    (p < c.N → dig (setdig c.B d p x) p = x % c.B ∧
      (val c.B (setdig c.B d p x) : Int) = val c.B d + ((x % c.B : Nat) - (dig d p : Int)) * (c.B ^ p : Nat)) ∧
    (c.N ≤ p → dig (setdig c.B d p x) p = 0) ∧ (q ≠ p → dig (setdig c.B d p x) q = dig d q) ∧
    val c.B d < c.CAP ∧ arr c (val c.B d) = d ∧
    (n < c.CAP → ArrayOk c (arr c n) ∧ val c.B (arr c n) = n ∧ (msd (arr c n) = 0 ↔ n = 0))
end

