-- ==== Sys2Proof/Laws/Digits.lean ====
section
/-! SUPPORT. What the digit-array functions compute: lengths, digit bounds, values (R6, R50 to R52, R55). -/

namespace Sys2Proof.Laws

open Sys2Proof Sys2Proof.Machine

/-! ### The parameters' bounds -/

theorem wf_facts (c : Config) :
    1 ≤ c.W ∧ 0 < c.N ∧ 1 ≤ c.M ∧ c.M ≤ 2 ^ c.W - 1 ∧ c.W ≤ c.K ∧ c.N < 2 ^ c.K := by
  have h := c.bounds
  simp only [Params.wf, Bool.and_eq_true, decide_eq_true_eq] at h
  tauto

theorem N_pos (c : Config) : 0 < c.N := (wf_facts c).2.1

theorem two_le_B (c : Config) : 2 ≤ c.B := by
  have := (wf_facts c).2.2.1
  unfold Config.B
  omega

theorem B_pos (c : Config) : 0 < c.B := by have := two_le_B c; omega

theorem B_le (c : Config) : c.B ≤ 2 ^ c.W := by
  have h1 := (wf_facts c).2.2.2.1
  have h2 : 0 < 2 ^ c.W := Nat.two_pow_pos _
  unfold Config.B
  omega

theorem CAP_pos (c : Config) : 0 < c.CAP := Nat.pow_pos (B_pos c)

theorem two_le_CAP (c : Config) : 2 ≤ c.CAP :=
  calc 2 ≤ c.B := two_le_B c
    _ = c.B ^ 1 := (pow_one _).symm
    _ ≤ c.CAP := Nat.pow_le_pow_right (B_pos c) (N_pos c)

theorem B_le_two_pow_K (c : Config) : c.B ≤ 2 ^ c.K :=
  (B_le c).trans (Nat.pow_le_pow_right (by decide) (wf_facts c).2.2.2.2.1)

theorem CAP_le (c : Config) : c.CAP ≤ 2 ^ (c.N * c.W) := by
  rw [mul_comm, pow_mul]
  exact Nat.pow_le_pow_left (B_le c) _

theorem le_M_iff (c : Config) (x : Nat) : x ≤ c.M ↔ x < c.B := Nat.lt_succ_iff.symm

/-! ### Values -/

/-- The digits of a list are below B. -/
abbrev Below (B : Nat) (d : List Nat) : Prop := ∀ x ∈ d, x < B

theorem arrayOk_iff (c : Config) (d : DigitArray) : ArrayOk c d ↔ d.length = c.N ∧ Below c.B d := by
  simp only [ArrayOk, Below, le_M_iff]

theorem val_eq_ofDigits (B : Nat) (d : DigitArray) : val B d = Nat.ofDigits B d.reverse := by
  induction d with
  | nil => rfl
  | cons x xs ih =>
    rw [val, ih, List.reverse_cons, Nat.ofDigits_append]
    simp [Nat.ofDigits_singleton]
    ring

theorem val_lt {B : Nat} {d : DigitArray} (h : Below B d) : val B d < B ^ d.length := by
  induction d with
  | nil => simp [val]
  | cons x xs ih =>
    have hx : x + 1 ≤ B := h x (by simp)
    have hxs := ih (fun y hy => h y (by simp [hy]))
    calc val B (x :: xs) = x * B ^ xs.length + val B xs := rfl
      _ < x * B ^ xs.length + B ^ xs.length := Nat.add_lt_add_left hxs _
      _ = (x + 1) * B ^ xs.length := by ring
      _ ≤ B * B ^ xs.length := Nat.mul_le_mul_right _ hx
      _ = B ^ (x :: xs).length := by rw [List.length_cons, pow_succ, mul_comm]

theorem val_replicate_zero (B n : Nat) : val B (List.replicate n 0) = 0 := by
  induction n with
  | zero => rfl
  | succ n ih => simp [List.replicate_succ, val, ih]

theorem val_append (B : Nat) (a b : DigitArray) : val B (a ++ b) = val B a * B ^ b.length + val B b := by
  induction a with
  | nil => simp [val]
  | cons x xs ih =>
    simp only [List.cons_append, val, ih, List.length_append, pow_add]
    ring

theorem decompose_length (B k n : Nat) : (decompose B k n).length = k := by
  induction k with
  | zero => rfl
  | succ k ih => simp [decompose, ih]

theorem decompose_below {B : Nat} (hB : 0 < B) (k n : Nat) : Below B (decompose B k n) := by
  induction k with
  | zero => intro x hx; simp [decompose] at hx
  | succ k ih =>
    intro x hx
    rcases List.mem_cons.1 hx with rfl | hx
    · exact Nat.mod_lt _ hB
    · exact ih x hx

theorem val_decompose (B k n : Nat) : val B (decompose B k n) = n % B ^ k := by
  induction k with
  | zero => simp [decompose, val, Nat.mod_one]
  | succ k ih =>
    rw [decompose, val, decompose_length, ih, Nat.mod_pow_succ]
    ring

theorem val_inj {B : Nat} : ∀ {a b : DigitArray}, a.length = b.length → Below B a → Below B b → val B a = val B b → a = b
  | [], [], _, _, _, _ => rfl
  | x :: xs, y :: ys, hl, ha, hb, h => by
    have hB : 0 < B := Nat.lt_of_le_of_lt (Nat.zero_le x) (ha x (by simp))
    have hl' : xs.length = ys.length := by simpa using hl
    have hxs : Below B xs := fun z hz => ha z (by simp [hz])
    have hys : Below B ys := fun z hz => hb z (by simp [hz])
    have h1 := val_lt hxs
    have h2 := val_lt hys
    rw [← hl'] at h2
    simp only [val, ← hl'] at h
    have hx : x = y := by
      have := congrArg (· / B ^ xs.length) h
      have hp : 0 < B ^ xs.length := Nat.pow_pos hB
      simpa [Nat.mul_comm _ (B ^ xs.length), Nat.mul_add_div hp, Nat.div_eq_of_lt h1, Nat.div_eq_of_lt h2] using this
    subst hx
    rw [val_inj hl' hxs hys (by omega)]

theorem decompose_val {B : Nat} {d : DigitArray} (h : Below B d) (hB : 0 < B) : decompose B d.length (val B d) = d :=
  val_inj (decompose_length _ _ _) (decompose_below hB _ _) h
    (by rw [val_decompose, Nat.mod_eq_of_lt (val_lt h)])

/-! ### The arrays of an instance -/

theorem arr_ok (c : Config) (n : Nat) : ArrayOk c (arr c n) :=
  (arrayOk_iff c _).2 ⟨decompose_length _ _ _, decompose_below (B_pos c) _ _⟩

theorem val_arr (c : Config) (n : Nat) : val c.B (arr c n) = n % c.CAP := val_decompose _ _ _

theorem val_lt_CAP {c : Config} {d : DigitArray} (h : ArrayOk c d) : val c.B d < c.CAP := by
  obtain ⟨hl, hb⟩ := (arrayOk_iff c d).1 h
  simpa [Config.CAP, hl] using val_lt hb

theorem arr_val {c : Config} {d : DigitArray} (h : ArrayOk c d) : arr c (val c.B d) = d := by
  obtain ⟨hl, hb⟩ := (arrayOk_iff c d).1 h
  simpa [arr, hl] using decompose_val hb (B_pos c)

/-- An array of the instance is determined by its value modulo CAP: the form in which the engine's lemmas are used. -/
theorem eq_arr {c : Config} {d : DigitArray} (h : ArrayOk c d) {n : Nat} (hv : val c.B d = n % c.CAP) : d = arr c n := by
  obtain ⟨hl, hb⟩ := (arrayOk_iff c d).1 h
  obtain ⟨hl', hb'⟩ := (arrayOk_iff c _).1 (arr_ok c n)
  exact val_inj (hl.trans hl'.symm) hb hb' (by rw [hv, val_arr])

theorem arr_mod (c : Config) (n : Nat) : arr c (n % c.CAP) = arr c n :=
  eq_arr (arr_ok c _) (by rw [val_arr, Nat.mod_mod])

theorem zeroArray_ok (c : Config) : ArrayOk c (zeroArray c) :=
  ⟨by simp [zeroArray], fun x hx => by simp [List.eq_of_mem_replicate hx]⟩

theorem val_zeroArray (c : Config) : val c.B (zeroArray c) = 0 := val_replicate_zero _ _

theorem zeroArray_eq (c : Config) : zeroArray c = arr c 0 :=
  eq_arr (zeroArray_ok c) (by rw [val_zeroArray, Nat.zero_mod])

theorem array_ext {c : Config} {a b : DigitArray} (ha : ArrayOk c a) (hb : ArrayOk c b) (h : val c.B a = val c.B b) :
    a = b := by
  rw [← arr_val ha, ← arr_val hb, h]

/-! ### The accessors -/

theorem dig_eq (B : Nat) : ∀ (d : DigitArray), Below B d → ∀ p, dig d p = val B d / B ^ p % B
  | [], _, p => by simp [dig, val]
  | x :: xs, h, p => by
    have hx : x < B := h x (by simp)
    have hB : 0 < B := by omega
    have hxs : Below B xs := fun z hz => h z (by simp [hz])
    have hv := val_lt hxs
    have ih := dig_eq B xs hxs p
    rcases Nat.lt_trichotomy p xs.length with hp | hp | hp
    · have hd : dig (x :: xs) p = dig xs p := by
        unfold dig
        rw [if_pos (by simp; omega), if_pos hp]
        obtain ⟨k, hk⟩ : ∃ k, (x :: xs).length - 1 - p = k + 1 := ⟨xs.length - 1 - p, by simp; omega⟩
        have hk' : xs.length - 1 - p = k := by simp at hk; omega
        rw [hk, hk', List.getD_cons_succ]
      rw [hd, ih, val]
      obtain ⟨e, he⟩ : ∃ e, xs.length = p + 1 + e := ⟨xs.length - (p + 1), by omega⟩
      rw [he, pow_add, pow_add, pow_one]
      have : x * (B ^ p * B * B ^ e) + val B xs = B ^ p * (x * B ^ e * B) + val B xs := by ring
      rw [this, Nat.mul_add_div (Nat.pow_pos hB), Nat.mul_add_mod_self_right]
    · have hd : dig (x :: xs) p = x := by
        unfold dig
        rw [if_pos (by simp; omega)]
        have : (x :: xs).length - 1 - p = 0 := by simp; omega
        rw [this]
        rfl
      rw [hd, val, hp, mul_comm, Nat.mul_add_div (Nat.pow_pos hB), Nat.div_eq_of_lt hv, add_zero, Nat.mod_eq_of_lt hx]
    · have hd : dig (x :: xs) p = 0 := by
        unfold dig
        rw [if_neg (by simp; omega)]
      have hlt : val B (x :: xs) < B ^ p :=
        (val_lt h).trans_le (Nat.pow_le_pow_right hB (by simp; omega))
      rw [hd, Nat.div_eq_of_lt hlt, Nat.zero_mod]

theorem dig_lt {B : Nat} {d : DigitArray} (h : Below B d) (hB : 0 < B) (p : Nat) : dig d p < B := by
  rw [dig_eq B d h]
  exact Nat.mod_lt _ hB

theorem dig_of_length_le {d : DigitArray} {p : Nat} (h : d.length ≤ p) : dig d p = 0 := by
  unfold dig
  rw [if_neg (by omega)]

theorem setdig_length (B : Nat) (d : DigitArray) (p x : Nat) : (setdig B d p x).length = d.length := by
  unfold setdig
  split <;> simp

theorem setdig_below {B : Nat} {d : DigitArray} (h : Below B d) (hB : 0 < B) (p x : Nat) : Below B (setdig B d p x) := by
  unfold setdig
  split
  · intro y hy
    rcases List.mem_or_eq_of_mem_set hy with hy | rfl
    · exact h y hy
    · exact Nat.mod_lt _ hB
  · exact h

theorem setdig_ok {c : Config} {d : DigitArray} (h : ArrayOk c d) (p x : Nat) : ArrayOk c (setdig c.B d p x) := by
  obtain ⟨hl, hb⟩ := (arrayOk_iff c d).1 h
  exact (arrayOk_iff c _).2 ⟨(setdig_length _ _ _ _).trans hl, setdig_below hb (B_pos c) p x⟩

theorem setdig_of_length_le {B : Nat} {d : DigitArray} {p : Nat} (h : d.length ≤ p) (x : Nat) : setdig B d p x = d := by
  unfold setdig
  rw [if_neg (by omega)]

theorem dig_setdig_same {B : Nat} {d : DigitArray} {p : Nat} (h : p < d.length) (x : Nat) :
    dig (setdig B d p x) p = x % B := by
  unfold dig setdig
  simp only [h, if_true, List.length_set]
  rw [List.getD_eq_getElem _ _ (by simp; omega)]
  simp

theorem dig_setdig_other {B : Nat} (d : DigitArray) {p q : Nat} (h : q ≠ p) (x : Nat) :
    dig (setdig B d p x) q = dig d q := by
  unfold dig setdig
  by_cases hp : p < d.length
  · simp only [hp, if_true, List.length_set]
    split
    · rw [List.getD_eq_getElem _ _ (by simp; omega), List.getD_eq_getElem _ _ (by omega), List.getElem_set_ne (by omega)]
    · rfl
  · simp [hp]

/-- The effect of setdig on the value, without subtraction (R62(d)). -/
theorem val_setdig {B : Nat} : ∀ (d : DigitArray) {p : Nat}, p < d.length → ∀ x,
    val B (setdig B d p x) + dig d p * B ^ p = val B d + x % B * B ^ p
  | [], p, h, _ => by simp at h
  | y :: ys, p, h, x => by
    have hl : p ≤ ys.length := by simp at h; omega
    rcases Nat.lt_or_eq_of_le hl with hp | hp
    · have hs : setdig B (y :: ys) p x = y :: setdig B ys p x := by
        unfold setdig
        rw [if_pos h, if_pos hp]
        have : (y :: ys).length - 1 - p = (ys.length - 1 - p) + 1 := by simp; omega
        rw [this, List.set_cons_succ]
      have hd : dig (y :: ys) p = dig ys p := by
        unfold dig
        rw [if_pos h, if_pos hp]
        have : (y :: ys).length - 1 - p = (ys.length - 1 - p) + 1 := by simp; omega
        rw [this, List.getD_cons_succ]
      have ih := val_setdig (B := B) ys hp x
      rw [hs, hd]
      simp only [val, setdig_length]
      omega
    · have hs : setdig B (y :: ys) p x = x % B :: ys := by
        unfold setdig
        rw [if_pos h]
        have : (y :: ys).length - 1 - p = 0 := by simp; omega
        rw [this, List.set_cons_zero]
      have hd : dig (y :: ys) p = y := by
        unfold dig
        rw [if_pos h]
        have : (y :: ys).length - 1 - p = 0 := by simp; omega
        rw [this]
        rfl
      rw [hs, hd, hp]
      simp only [val]
      omega

/-! ### The number of significant digits -/

theorem leadingZeros_le : ∀ d : DigitArray, leadingZeros d ≤ d.length
  | [] => Nat.le_refl 0
  | x :: xs => by
    have := leadingZeros_le xs
    unfold leadingZeros
    split
    · simpa using this
    · simp

theorem msd_le (d : DigitArray) : msd d ≤ d.length := Nat.sub_le _ _

theorem msd_cons_zero (xs : DigitArray) : msd (0 :: xs) = msd xs := by
  have := leadingZeros_le xs
  simp only [msd, leadingZeros, if_true, List.length_cons]
  omega

theorem msd_cons_ne {x : Nat} (hx : x ≠ 0) (xs : DigitArray) : msd (x :: xs) = xs.length + 1 := by
  simp [msd, leadingZeros, hx]

theorem val_lt_pow_msd {B : Nat} (hB : 0 < B) : ∀ {d : DigitArray}, Below B d → val B d < B ^ msd d
  | [], _ => by simp [val, msd]
  | x :: xs, h => by
    by_cases hx : x = 0
    · subst hx
      rw [msd_cons_zero]
      simpa [val] using val_lt_pow_msd hB (fun z hz => h z (by simp [hz]))
    · rw [msd_cons_ne hx]
      simpa using val_lt h

theorem pow_msd_le_val {B : Nat} (hB : 0 < B) : ∀ {d : DigitArray}, 0 < msd d → B ^ (msd d - 1) ≤ val B d
  | [], h => by simp [msd] at h
  | x :: xs, h => by
    by_cases hx : x = 0
    · subst hx
      rw [msd_cons_zero] at h ⊢
      simpa [val] using pow_msd_le_val hB h
    · rw [msd_cons_ne hx, Nat.add_sub_cancel, val]
      exact Nat.le_add_right_of_le (Nat.le_mul_of_pos_left _ (Nat.pos_of_ne_zero hx))

theorem msd_eq_zero_iff {B : Nat} (hB : 0 < B) {d : DigitArray} (h : Below B d) : msd d = 0 ↔ val B d = 0 := by
  constructor
  · intro hm
    have := val_lt_pow_msd hB h
    rw [hm, pow_zero] at this
    omega
  · intro hv
    by_contra hm
    have := pow_msd_le_val hB (Nat.pos_of_ne_zero hm)
    have := Nat.pow_pos (n := msd d - 1) hB
    omega

/-- The digit at the top of the significant part: what the divider calls the leading digit (R52, R78). -/
theorem lead_bounds {B : Nat} (hB : 0 < B) {d : DigitArray} (h : Below B d) (hm : 0 < msd d) :
    0 < dig d (msd d - 1) ∧ val B d < (dig d (msd d - 1) + 1) * B ^ (msd d - 1) := by
  have h1 := val_lt_pow_msd hB h
  have h2 := pow_msd_le_val hB hm
  have hp : 0 < B ^ (msd d - 1) := Nat.pow_pos hB
  have hsplit : B ^ msd d = B * B ^ (msd d - 1) := by
    conv_lhs => rw [show msd d = (msd d - 1) + 1 by omega, pow_succ, mul_comm]
  have hq : val B d / B ^ (msd d - 1) < B := Nat.div_lt_of_lt_mul (by rw [mul_comm, ← hsplit]; exact h1)
  rw [dig_eq B d h, Nat.mod_eq_of_lt hq]
  exact ⟨Nat.div_pos h2 hp, by rw [mul_comm]; exact Nat.lt_mul_div_succ _ hp⟩

end Sys2Proof.Laws
end

