-- ==== Sys2Proof/Laws/Arith.lean ====
section
/-! SUPPORT. What the adder, subtractor, multiplier and comparator compute (R63, R66, R70, R94). -/

namespace Sys2Proof.Laws

open Sys2Proof Sys2Proof.Machine

/-! ### Addition -/

theorem addLoop_length (B : Nat) : ∀ (xs ys : List Nat) (c : Nat), xs.length = ys.length →
    (addLoop B xs ys c).1.length = xs.length
  | [], [], _, _ => rfl
  | x :: xs, y :: ys, c, h => by
    simp only [addLoop, List.length_cons]
    rw [addLoop_length B xs ys _ (by simpa using h)]

theorem addLoop_below {B : Nat} (hB : 0 < B) : ∀ (xs ys : List Nat) (c : Nat), Below B (addLoop B xs ys c).1
  | [], _, _ => by intro z hz; simp [addLoop] at hz
  | _ :: _, [], _ => by intro z hz; simp [addLoop] at hz
  | x :: xs, y :: ys, c => by
    intro z hz
    simp only [addLoop, List.mem_cons] at hz
    rcases hz with rfl | hz
    · exact Nat.mod_lt _ hB
    · exact addLoop_below hB xs ys _ z hz

theorem addLoop_value (B : Nat) : ∀ (xs ys : List Nat) (c : Nat), xs.length = ys.length →
    Nat.ofDigits B xs + Nat.ofDigits B ys + c =
      Nat.ofDigits B (addLoop B xs ys c).1 + (addLoop B xs ys c).2 * B ^ xs.length
  | [], [], c, _ => by simp [addLoop]
  | x :: xs, y :: ys, c, h => by
    have ih := addLoop_value B xs ys ((x + y + c) / B) (by simpa using h)
    have hd := Nat.mod_add_div (x + y + c) B
    simp only [addLoop, Nat.ofDigits_cons, List.length_cons, pow_succ]
    calc x + B * Nat.ofDigits B xs + (y + B * Nat.ofDigits B ys) + c
        = (x + y + c) % B + B * ((x + y + c) / B) + B * (Nat.ofDigits B xs + Nat.ofDigits B ys) := by rw [hd]; ring
      _ = (x + y + c) % B + B * (Nat.ofDigits B xs + Nat.ofDigits B ys + (x + y + c) / B) := by ring
      _ = _ := by rw [ih]; ring

theorem val_addWithCarry (B : Nat) {a b : DigitArray} (h : a.length = b.length) :
    val B a + val B b = val B (addWithCarry B a b).1 + (addWithCarry B a b).2 * B ^ a.length := by
  have := addLoop_value B a.reverse b.reverse 0 (by simpa using h)
  simpa [val_eq_ofDigits, addWithCarry] using this

theorem addArrays_ok {c : Config} {a b : DigitArray} (ha : ArrayOk c a) (hb : ArrayOk c b) : ArrayOk c (addArrays c a b) := by
  refine (arrayOk_iff c _).2 ⟨?_, ?_⟩
  · simp [addArrays, addWithCarry, addLoop_length, ha.1, hb.1]
  · intro z hz
    exact addLoop_below (B_pos c) _ _ _ z (by simpa [addArrays, addWithCarry] using hz)

theorem addArrays_eq {c : Config} {a b : DigitArray} (ha : ArrayOk c a) (hb : ArrayOk c b) :
    addArrays c a b = arr c (val c.B a + val c.B b) := by
  refine eq_arr (addArrays_ok ha hb) ?_
  have h := val_addWithCarry c.B (ha.1.trans hb.1.symm)
  have hlt := val_lt_CAP (addArrays_ok ha hb)
  rw [h, ha.1]
  exact (by simp [addArrays, Config.CAP] at hlt ⊢; rw [Nat.mod_eq_of_lt hlt])

/-- The discarded carry is the overflow predicate of R65. -/
theorem addWithCarry_carry {c : Config} {a b : DigitArray} (ha : ArrayOk c a) (hb : ArrayOk c b) :
    (addWithCarry c.B a b).2 = (val c.B a + val c.B b) / c.CAP := by
  have h := val_addWithCarry c.B (ha.1.trans hb.1.symm)
  have hlt := val_lt_CAP (addArrays_ok ha hb)
  rw [ha.1] at h
  rw [h, show c.B ^ c.N = c.CAP from rfl, Nat.add_mul_div_right _ _ (CAP_pos c),
    show val c.B (addWithCarry c.B a b).1 = val c.B (addArrays c a b) from rfl, Nat.div_eq_of_lt hlt, Nat.zero_add]

/-! ### Subtraction -/

theorem subLoop_length (B : Nat) : ∀ (xs ys : List Nat) (w : Nat), xs.length = ys.length →
    (subLoop B xs ys w).1.length = xs.length
  | [], [], _, _ => rfl
  | x :: xs, y :: ys, w, h => by
    simp only [subLoop, List.length_cons]
    rw [subLoop_length B xs ys _ (by simpa using h)]

/-- One digit of R66: the digit is in range and the borrow accounts for what is missing. -/
theorem subDigit {B x y w : Nat} (hx : x < B) (hy : y < B) (hw : w ≤ 1) :
    (if (x : Int) - y - w < 0 then (x : Int) - y - w + B else (x : Int) - y - w).toNat < B ∧
    x + B * (if (x : Int) - y - w < 0 then 1 else 0) =
      (if (x : Int) - y - w < 0 then (x : Int) - y - w + B else (x : Int) - y - w).toNat + y + w := by
  split <;> omega

theorem subLoop_value {B : Nat} : ∀ (xs ys : List Nat) (w : Nat), xs.length = ys.length → Below B xs → Below B ys →
    w ≤ 1 →
    Below B (subLoop B xs ys w).1 ∧ (subLoop B xs ys w).2 ≤ 1 ∧
    Nat.ofDigits B xs + (subLoop B xs ys w).2 * B ^ xs.length =
      Nat.ofDigits B (subLoop B xs ys w).1 + Nat.ofDigits B ys + w
  | [], [], w, _, _, _, hw => ⟨by intro z hz; simp [subLoop] at hz, hw, by simp [subLoop]⟩
  | x :: xs, y :: ys, w, h, hx, hy, hw => by
    obtain ⟨h1, h2⟩ := subDigit (hx x (by simp)) (hy y (by simp)) hw
    obtain ⟨i1, i2, i3⟩ := subLoop_value xs ys (if (x : Int) - y - w < 0 then 1 else 0) (by simpa using h)
      (fun z hz => hx z (by simp [hz])) (fun z hz => hy z (by simp [hz])) (by split <;> omega)
    simp only [subLoop, Nat.ofDigits_cons, List.length_cons, pow_succ]
    generalize (if (x : Int) - y - w < 0 then (x : Int) - y - w + B else (x : Int) - y - w).toNat = t at *
    generalize (if (x : Int) - y - w < 0 then 1 else 0) = w' at *
    generalize subLoop B xs ys w' = r at *
    refine ⟨?_, i2, ?_⟩
    · intro z hz
      rcases List.mem_cons.1 hz with rfl | hz
      · exact h1
      · exact i1 z hz
    · calc x + B * Nat.ofDigits B xs + r.2 * (B ^ xs.length * B)
          = x + B * (Nat.ofDigits B xs + r.2 * B ^ xs.length) := by ring
        _ = x + B * w' + B * (Nat.ofDigits B r.1 + Nat.ofDigits B ys) := by rw [i3]; ring
        _ = _ := by rw [h2]; ring

theorem Below.reverse {B : Nat} {d : List Nat} (h : Below B d) : Below B d.reverse := fun z hz => h z (by simpa using hz)

theorem subWithBorrow_spec {B : Nat} {a b : DigitArray} (h : a.length = b.length) (ha : Below B a) (hb : Below B b) :
    Below B (subWithBorrow B a b).1 ∧ (subWithBorrow B a b).2 ≤ 1 ∧
    val B a + (subWithBorrow B a b).2 * B ^ a.length = val B (subWithBorrow B a b).1 + val B b := by
  obtain ⟨h1, h2, h3⟩ := subLoop_value a.reverse b.reverse 0 (by simpa using h) ha.reverse hb.reverse (by omega)
  refine ⟨h1.reverse, h2, ?_⟩
  simpa [val_eq_ofDigits, subWithBorrow] using h3

theorem subArrays_ok {c : Config} {a b : DigitArray} (ha : ArrayOk c a) (hb : ArrayOk c b) : ArrayOk c (subArrays c a b) := by
  obtain ⟨la, ba⟩ := (arrayOk_iff c a).1 ha
  obtain ⟨lb, bb⟩ := (arrayOk_iff c b).1 hb
  refine (arrayOk_iff c _).2 ⟨?_, (subWithBorrow_spec (la.trans lb.symm) ba bb).1⟩
  simp [subArrays, subWithBorrow, subLoop_length, la, lb]

/-- The final borrow is the underflow predicate of R68. -/
theorem subWithBorrow_borrow {c : Config} {a b : DigitArray} (ha : ArrayOk c a) (hb : ArrayOk c b) :
    (subWithBorrow c.B a b).2 = if val c.B a < val c.B b then 1 else 0 := by
  obtain ⟨la, ba⟩ := (arrayOk_iff c a).1 ha
  obtain ⟨lb, bb⟩ := (arrayOk_iff c b).1 hb
  obtain ⟨-, h2, h3⟩ := subWithBorrow_spec (la.trans lb.symm) ba bb
  have hr := val_lt_CAP (subArrays_ok ha hb)
  have hA := val_lt_CAP ha
  rw [la, show c.B ^ c.N = c.CAP from rfl] at h3
  simp only [subArrays] at hr
  rcases Nat.le_one_iff_eq_zero_or_eq_one.1 h2 with h | h <;> rw [h] at h3 ⊢ <;> split <;> omega

theorem subArrays_eq {c : Config} {a b : DigitArray} (ha : ArrayOk c a) (hb : ArrayOk c b) :
    subArrays c a b = arr c (val c.B a + c.CAP - val c.B b) := by
  refine eq_arr (subArrays_ok ha hb) ?_
  obtain ⟨la, ba⟩ := (arrayOk_iff c a).1 ha
  obtain ⟨lb, bb⟩ := (arrayOk_iff c b).1 hb
  obtain ⟨-, -, h3⟩ := subWithBorrow_spec (la.trans lb.symm) ba bb
  have hr := val_lt_CAP (subArrays_ok ha hb)
  have hA := val_lt_CAP ha
  have hB := val_lt_CAP hb
  rw [la, show c.B ^ c.N = c.CAP from rfl, subWithBorrow_borrow ha hb] at h3
  change val c.B (subWithBorrow c.B a b).1 < _ at hr
  change val c.B (subWithBorrow c.B a b).1 = _
  split at h3
  · rw [Nat.mod_eq_of_lt (by omega)]; omega
  · rw [show val c.B a + c.CAP - val c.B b = (val c.B a - val c.B b) + c.CAP by omega, Nat.add_mod_right,
      Nat.mod_eq_of_lt (by omega)]
    omega

/-- Without underflow the difference is the true one. -/
theorem subArrays_of_le {c : Config} {a b : DigitArray} (ha : ArrayOk c a) (hb : ArrayOk c b) (h : val c.B b ≤ val c.B a) :
    subArrays c a b = arr c (val c.B a - val c.B b) := by
  rw [subArrays_eq ha hb, ← arr_mod, show val c.B a + c.CAP - val c.B b = (val c.B a - val c.B b) + c.CAP by omega,
    Nat.add_mod_right, arr_mod]

/-! ### Multiplication -/

theorem mulRow_ok {c : Config} (a : DigitArray) (y j : Nat) {r : DigitArray} (hr : ArrayOk c r) :
    ∀ i, ArrayOk c (mulRow c.B a y j r i).1
  | 0 => hr
  | i + 1 => setdig_ok (mulRow_ok a y j hr i) _ _

theorem mulRows_ok {c : Config} {a b : DigitArray} (ha : ArrayOk c a) : ∀ j, ArrayOk c (mulRows c.B a b j)
  | 0 => by
    have := zeroArray_ok c
    rwa [zeroArray, ← ha.1] at this
  | j + 1 => mulRow_ok _ _ _ (mulRows_ok ha j) _

theorem mulArrays_ok {c : Config} {a b : DigitArray} (ha : ArrayOk c a) : ArrayOk c (mulArrays c a b) := mulRows_ok ha _

/-- The value of the low i digits grows by one digit. -/
theorem mod_pow_succ_dig {B : Nat} {a : DigitArray} (h : Below B a) (i : Nat) :
    val B a % B ^ (i + 1) = val B a % B ^ i + dig a i * B ^ i := by
  rw [Nat.mod_pow_succ, dig_eq B a h, mul_comm (B ^ i)]

/-- The invariant of a row of R71, modulo CAP: i digits of a are accounted for, the carry stands at power i+j. -/
theorem mulRow_value {c : Config} {a : DigitArray} (ha : ArrayOk c a) (y j : Nat) {r : DigitArray} (hr : ArrayOk c r) :
    ∀ i, val c.B (mulRow c.B a y j r i).1 + (mulRow c.B a y j r i).2 * c.B ^ (i + j) ≡
      val c.B r + val c.B a % c.B ^ i * y * c.B ^ j [MOD c.CAP]
  | 0 => by simp [mulRow, Nat.mod_one]; rfl
  | i + 1 => by
    have ih := mulRow_value ha y j hr i
    have hok := mulRow_ok a y j hr i
    have hb := ((arrayOk_iff c a).1 ha).2
    rw [mod_pow_succ_dig hb]
    simp only [mulRow]
    generalize (mulRow c.B a y j r i) = p at *
    obtain ⟨r', carry⟩ := p
    simp only at *
    set t := mulTerm a y j r' i carry with ht
    have hdm := Nat.mod_add_div t c.B
    have key : val c.B (setdig c.B r' (i + j) (t % c.B)) + t / c.B * c.B ^ (i + 1 + j) ≡
        val c.B r' + (dig a i * y + carry) * c.B ^ (i + j) [MOD c.CAP] := by
      by_cases hp : i + j < r'.length
      · have hv := val_setdig (B := c.B) r' hp (t % c.B)
        rw [Nat.mod_mod] at hv
        have : val c.B (setdig c.B r' (i + j) (t % c.B)) + t / c.B * c.B ^ (i + 1 + j) =
            val c.B r' + (dig a i * y + carry) * c.B ^ (i + j) := by
          have e1 : t / c.B * c.B ^ (i + 1 + j) = c.B * (t / c.B) * c.B ^ (i + j) := by
            rw [show i + 1 + j = (i + j) + 1 by omega, pow_succ]; ring
          have e2 : t * c.B ^ (i + j) = t % c.B * c.B ^ (i + j) + c.B * (t / c.B) * c.B ^ (i + j) := by
            rw [← add_mul, hdm]
          have e3 : t * c.B ^ (i + j) = (dig a i * y + carry) * c.B ^ (i + j) + dig r' (i + j) * c.B ^ (i + j) := by
            rw [ht, mulTerm]; ring
          omega
        rw [this]
      · rw [setdig_of_length_le (by omega)]
        rw [hok.1] at hp
        have z : ∀ k q, c.N ≤ q → k * c.B ^ q ≡ 0 [MOD c.CAP] := fun k q hq =>
          (Nat.modEq_zero_iff_dvd).2 (Dvd.dvd.mul_left (pow_dvd_pow _ hq) k)
        exact (Nat.ModEq.refl _).add ((z _ _ (by omega)).trans (z _ _ (by omega)).symm)
    calc _ ≡ val c.B r' + (dig a i * y + carry) * c.B ^ (i + j) [MOD c.CAP] := key
      _ = (val c.B r' + carry * c.B ^ (i + j)) + dig a i * y * c.B ^ (i + j) := by ring
      _ ≡ (val c.B r + val c.B a % c.B ^ i * y * c.B ^ j) + dig a i * y * c.B ^ (i + j) [MOD c.CAP] := ih.add_right _
      _ = _ := by rw [pow_add]; ring

theorem mulRows_value {c : Config} {a b : DigitArray} (ha : ArrayOk c a) (hb : ArrayOk c b) :
    ∀ j, val c.B (mulRows c.B a b j) ≡ val c.B a * (val c.B b % c.B ^ j) [MOD c.CAP]
  | 0 => by simp [mulRows, val_replicate_zero, Nat.mod_one]; rfl
  | j + 1 => by
    have ih := mulRows_value ha hb j
    have hrow := mulRow_value ha (dig b j) j (mulRows_ok (b := b) ha j) a.length
    have hA := val_lt ((arrayOk_iff c a).1 ha).2
    rw [Nat.mod_eq_of_lt hA] at hrow
    have hz : ∀ k, k * c.B ^ (a.length + j) ≡ 0 [MOD c.CAP] := fun k =>
      (Nat.modEq_zero_iff_dvd).2 (Dvd.dvd.mul_left (pow_dvd_pow _ (by rw [ha.1]; omega)) k)
    have hcarry := (hz (mulRow c.B a (dig b j) j (mulRows c.B a b j) a.length).2)
    rw [mod_pow_succ_dig ((arrayOk_iff c b).1 hb).2]
    calc val c.B (mulRows c.B a b (j + 1))
        = val c.B (mulRow c.B a (dig b j) j (mulRows c.B a b j) a.length).1 + 0 := rfl
      _ ≡ _ [MOD c.CAP] := (Nat.ModEq.refl _).add hcarry.symm
      _ ≡ val c.B (mulRows c.B a b j) + val c.B a * dig b j * c.B ^ j [MOD c.CAP] := hrow
      _ ≡ val c.B a * (val c.B b % c.B ^ j) + val c.B a * dig b j * c.B ^ j [MOD c.CAP] := ih.add_right _
      _ = _ := by ring

theorem mulArrays_eq {c : Config} {a b : DigitArray} (ha : ArrayOk c a) (hb : ArrayOk c b) :
    mulArrays c a b = arr c (val c.B a * val c.B b) := by
  refine eq_arr (mulArrays_ok ha) ?_
  have h := mulRows_value ha hb c.N
  have hv := val_lt_CAP hb
  rw [show c.B ^ c.N = c.CAP from rfl, Nat.mod_eq_of_lt hv] at h
  have := val_lt_CAP (mulArrays_ok (b := b) ha)
  rw [← Nat.mod_eq_of_lt this]
  exact h

/-! ### Comparison -/

theorem cmpArrays_eq {B : Nat} : ∀ {a b : DigitArray}, a.length = b.length → Below B a → Below B b →
    cmpArrays a b = compare (val B a) (val B b)
  | [], [], _, _, _ => rfl
  | x :: xs, y :: ys, hl, ha, hb => by
    have hl' : xs.length = ys.length := by simpa using hl
    have hxs : Below B xs := fun z hz => ha z (by simp [hz])
    have hys : Below B ys := fun z hz => hb z (by simp [hz])
    have h1 := val_lt hxs
    have h2 := val_lt hys
    have ih := cmpArrays_eq hl' hxs hys
    simp only [cmpArrays, val]
    rw [← hl'] at h2 ⊢
    have key : ∀ {p q u v : Nat}, p < q → u < B ^ xs.length → p * B ^ xs.length + u < q * B ^ xs.length + v := by
      intro p q u v hpq hu
      have := Nat.mul_le_mul_right (B ^ xs.length) (Nat.succ_le_of_lt hpq)
      rw [Nat.succ_mul] at this
      omega
    rcases Nat.lt_trichotomy x y with h | h | h
    · rw [if_pos h, eq_comm, compare_lt_iff_lt]
      exact key h h1
    · subst h
      rw [if_neg (lt_irrefl _), if_neg (lt_irrefl _), ih]
      rcases Nat.lt_trichotomy (val B xs) (val B ys) with h | h | h
      · rw [compare_lt_iff_lt.2 h, eq_comm, compare_lt_iff_lt]; omega
      · rw [compare_eq_iff_eq.2 h, eq_comm, compare_eq_iff_eq, h]
      · rw [compare_gt_iff_gt.2 h, eq_comm, compare_gt_iff_gt]; omega
    · rw [if_neg (by omega), if_pos h, eq_comm, compare_gt_iff_gt]
      exact key h h2

theorem cmp_eq {c : Config} {a b : DigitArray} (ha : ArrayOk c a) (hb : ArrayOk c b) :
    cmpArrays a b = compare (val c.B a) (val c.B b) :=
  cmpArrays_eq (ha.1.trans hb.1.symm) ((arrayOk_iff c a).1 ha).2 ((arrayOk_iff c b).1 hb).2

theorem isZero_iff {c : Config} {a : DigitArray} (ha : ArrayOk c a) : isZero c a = true ↔ val c.B a = 0 := by
  rw [isZero, cmp_eq ha (zeroArray_ok c), val_zeroArray, beq_iff_eq, compare_eq_iff_eq]

end Sys2Proof.Laws
end

