-- ==== Sys2Proof/Laws/Divide.lean ====
section
/-! SUPPORT. Algorithm D as R77 to R84 give it computes the floor quotient of R75: the working values' lemmas, the two
correction checks, one iteration, the loop, and the two results `divArrays_eq` and `modArrays_eq`. Working values are lists
of digits least significant first; their value is `Nat.ofDigits`. -/

namespace Sys2Proof.Laws

open Sys2Proof Sys2Proof.Machine

/-! ### Working values -/

theorem ofDigits_lt {B : Nat} {xs : List Nat} (h : Below B xs) : Nat.ofDigits B xs < B ^ xs.length := by
  have := val_lt h.reverse
  rwa [val_eq_ofDigits, List.reverse_reverse, List.length_reverse] at this

theorem getD_eq {B : Nat} : ∀ {xs : List Nat}, Below B xs → ∀ k, xs.getD k 0 = Nat.ofDigits B xs / B ^ k % B
  | [], _, k => by simp
  | x :: xs, h, 0 => by
    rw [List.getD_cons_zero, pow_zero, Nat.div_one, Nat.ofDigits_cons, Nat.add_mul_mod_self_left]
    exact (Nat.mod_eq_of_lt (h x (by simp))).symm
  | x :: xs, h, k + 1 => by
    have hx : x < B := h x (by simp)
    have hB : 0 < B := by omega
    rw [List.getD_cons_succ, getD_eq (fun z hz => h z (by simp [hz])) k, Nat.ofDigits_cons, pow_succ, mul_comm (B ^ k) B,
      ← Nat.div_div_eq_div_mul, Nat.add_mul_div_left _ _ hB, Nat.div_eq_of_lt hx, Nat.zero_add]

theorem scaleLoop_length (B f : Nat) : ∀ (xs : List Nat) (c : Nat), (scaleLoop B f xs c).length = xs.length + 1
  | [], _ => rfl
  | x :: xs, c => by simp [scaleLoop, scaleLoop_length B f xs]

theorem scaleLoop_value (B f : Nat) : ∀ (xs : List Nat) (c : Nat),
    Nat.ofDigits B (scaleLoop B f xs c) = Nat.ofDigits B xs * f + c
  | [], c => by simp [scaleLoop]
  | x :: xs, c => by
    have hd := Nat.mod_add_div (x * f + c) B
    rw [scaleLoop, Nat.ofDigits_cons, scaleLoop_value B f xs, Nat.ofDigits_cons]
    calc (x * f + c) % B + B * (Nat.ofDigits B xs * f + (x * f + c) / B)
        = ((x * f + c) % B + B * ((x * f + c) / B)) + B * (Nat.ofDigits B xs * f) := by ring
      _ = _ := by rw [hd]; ring

theorem scaleLoop_below {B f : Nat} (hf : f < B) : ∀ (xs : List Nat) (c : Nat), Below B xs → c < B →
    Below B (scaleLoop B f xs c)
  | [], c, _, hc => by intro z hz; simp [scaleLoop] at hz; omega
  | x :: xs, c, h, hc => by
    have hx : x < B := h x (by simp)
    have hB : 0 < B := by omega
    have hcarry : (x * f + c) / B < B := by
      apply Nat.div_lt_of_lt_mul
      have : x * f ≤ x * (B - 1) := Nat.mul_le_mul_left _ (by omega)
      have : x * (B - 1) ≤ (B - 1) * (B - 1) := Nat.mul_le_mul_right _ (by omega)
      have : (B - 1) * (B - 1) + B ≤ B * B := by
        obtain ⟨b, rfl⟩ : ∃ b, B = b + 1 := ⟨B - 1, by omega⟩
        simp only [Nat.add_sub_cancel]
        nlinarith
      omega
    intro z hz
    rcases List.mem_cons.1 hz with rfl | hz
    · exact Nat.mod_lt _ hB
    · exact scaleLoop_below hf xs _ (fun z hz => h z (by simp [hz])) hcarry z hz

theorem scale_length (B f : Nat) (xs : List Nat) : (scale B f xs).length = xs.length + 1 := scaleLoop_length _ _ _ _

theorem scale_value (B f : Nat) (xs : List Nat) : Nat.ofDigits B (scale B f xs) = Nat.ofDigits B xs * f :=
  scaleLoop_value _ _ _ _

theorem scale_below {B f : Nat} (hf : f < B) {xs : List Nat} (h : Below B xs) : Below B (scale B f xs) :=
  scaleLoop_below hf _ _ h (by omega)

/-! ### The correction checks -/

theorem firstCheck_le (B n d1 d2 u2 : Nat) : ∀ fuel q r, firstCheck B n d1 d2 u2 fuel q r ≤ q
  | 0, q, _ => Nat.le_refl q
  | fuel + 1, q, r => by
    have := firstCheck_le B n d1 d2 u2 fuel (q - 1) (r + d1)
    unfold firstCheck
    split
    · split <;> omega
    · exact Nat.le_refl q

/-- The first check never goes below a digit that every failing estimate exceeds (R81). -/
theorem le_firstCheck {B n d1 d2 u2 num qt : Nat} (hqt : qt < B)
    (H : ∀ q r, q * d1 + r = num → 2 ≤ n → r * B + u2 < q * d2 → qt < q) :
    ∀ fuel q r, q * d1 + r = num → qt ≤ q → qt ≤ firstCheck B n d1 d2 u2 fuel q r
  | 0, _, _, _, h => h
  | fuel + 1, q, r, hn, h => by
    unfold firstCheck
    split
    case isTrue hc =>
      have hlt : qt < q := by
        rcases hc with hc | ⟨h2, hc⟩
        · omega
        · exact H q r hn h2 hc
      split
      · refine le_firstCheck hqt H fuel _ _ ?_ (by omega)
        obtain ⟨q', rfl⟩ : ∃ q', q = q' + 1 := ⟨q - 1, by omega⟩
        rw [Nat.add_sub_cancel, ← hn]
        ring
      · omega
    case isFalse => exact h

/-- After the first check the estimate is a digit: the `rhat < B` exit cannot cut the `qhat >= B` clause short (R81). -/
theorem firstCheck_lt {B n d1 d2 u2 : Nat} (hB : 0 < B) : ∀ fuel q r, (q < B ∨ ∃ k, q = B + k ∧ r + k * d1 < B ∧ k < fuel) →
    firstCheck B n d1 d2 u2 fuel q r < B
  | fuel, q, r, .inl h => (firstCheck_le _ _ _ _ _ _ _ _).trans_lt h
  | 0, _, _, .inr ⟨_, _, _, h⟩ => by omega
  | fuel + 1, q, r, .inr ⟨k, hq, hr, hk⟩ => by
    unfold firstCheck
    rw [if_pos (Or.inl (by omega))]
    rcases Nat.eq_zero_or_pos k with rfl | hpos
    · split
      · exact (firstCheck_le _ _ _ _ _ _ _ _).trans_lt (by omega)
      · omega
    · obtain ⟨k', rfl⟩ : ∃ k', k = k' + 1 := ⟨k - 1, by omega⟩
      rw [Nat.succ_mul] at hr
      rw [if_pos (by omega)]
      exact firstCheck_lt hB fuel _ _ (.inr ⟨k', by omega, by omega, by omega⟩)

/-- The second check ends at the largest digit, not above the estimate, whose product does not exceed the window (R82). -/
theorem secondCheck_eq {B : Nat} {D w : List Nat} (hD : Below B D) (hw : Below B w) (hl : w.length = D.length + 1)
    (hpos : 0 < Nat.ofDigits B D) : ∀ q, q < B → secondCheck B D w q = min q (Nat.ofDigits B w / Nat.ofDigits B D)
  | 0, _ => by simp [secondCheck]
  | q + 1, hq => by
    have hcmp : cmpArrays (scale B (q + 1) D).reverse w.reverse =
        compare ((q + 1) * Nat.ofDigits B D) (Nat.ofDigits B w) := by
      rw [cmpArrays_eq (by simp [scale_length, hl]) (scale_below hq hD).reverse hw.reverse, val_eq_ofDigits,
        val_eq_ofDigits, List.reverse_reverse, List.reverse_reverse, scale_value, mul_comm]
    unfold secondCheck
    rw [hcmp]
    split
    case isTrue h =>
      rw [compare_gt_iff_gt] at h
      have : Nat.ofDigits B w / Nat.ofDigits B D < q + 1 := (Nat.div_lt_iff_lt_mul hpos).2 h
      rw [secondCheck_eq hD hw hl hpos q (by omega), min_eq_right (by omega), min_eq_right (by omega)]
    case isFalse h =>
      rw [compare_gt_iff_gt] at h
      have : q + 1 ≤ Nat.ofDigits B w / Nat.ofDigits B D := (Nat.le_div_iff_mul_le hpos).2 (by omega)
      rw [min_eq_left this]

/-! ### One iteration -/

/-- What an iteration may assume of the divisor's digits and of the working dividend before position j (R79, R80). -/
structure DivCtx (B : Nat) (D U : List Nat) (j : Nat) : Prop where
  two_le : 2 ≤ B
  belowD : Below B D
  belowU : Below B U
  lenD : 0 < D.length
  lenU : j + D.length + 1 ≤ U.length
  lead : 0 < D.getD (D.length - 1) 0
  bound : Nat.ofDigits B U < Nat.ofDigits B D * B ^ (j + 1)

variable {B : Nat} {D U : List Nat} {j : Nat}

theorem DivCtx.B_pos (h : DivCtx B D U j) : 0 < B := by have := h.two_le; omega

theorem DivCtx.lead_eq (h : DivCtx B D U j) :
    Nat.ofDigits B D / B ^ (D.length - 1) = D.getD (D.length - 1) 0 := by
  rw [getD_eq h.belowD, Nat.mod_eq_of_lt]
  have := ofDigits_lt h.belowD
  apply Nat.div_lt_of_lt_mul
  rwa [← pow_succ, Nat.sub_add_cancel h.lenD]

theorem DivCtx.lead_le (h : DivCtx B D U j) :
    D.getD (D.length - 1) 0 * B ^ (D.length - 1) ≤ Nat.ofDigits B D := by
  rw [← h.lead_eq]
  exact Nat.div_mul_le_self _ _

theorem DivCtx.lt_lead (h : DivCtx B D U j) :
    Nat.ofDigits B D < (D.getD (D.length - 1) 0 + 1) * B ^ (D.length - 1) := by
  rw [← h.lead_eq, mul_comm]
  exact Nat.lt_mul_div_succ _ (Nat.pow_pos h.B_pos)

theorem DivCtx.D_pos (h : DivCtx B D U j) : 0 < Nat.ofDigits B D :=
  (Nat.mul_pos h.lead (Nat.pow_pos h.B_pos)).trans_le h.lead_le

theorem DivCtx.U_lt (h : DivCtx B D U j) : Nat.ofDigits B U < B ^ (j + D.length + 1) :=
  calc Nat.ofDigits B U < Nat.ofDigits B D * B ^ (j + 1) := h.bound
    _ ≤ B ^ D.length * B ^ (j + 1) := Nat.mul_le_mul_right _ (ofDigits_lt h.belowD).le
    _ = B ^ (j + D.length + 1) := by rw [← pow_add]; congr 1; omega

theorem DivCtx.window_below (h : DivCtx B D U j) : Below B (divWindow D.length U j) :=
  fun z hz => h.belowU z (List.mem_of_mem_drop (List.mem_of_mem_take hz))

theorem DivCtx.window_length (h : DivCtx B D U j) : (divWindow D.length U j).length = D.length + 1 := by
  have := h.lenU
  simp [divWindow]
  omega

/-- The window is the working dividend without its j low digits: above the window there are only zeros (R79, R83). -/
theorem DivCtx.window_value (h : DivCtx B D U j) :
    Nat.ofDigits B (divWindow D.length U j) = Nat.ofDigits B U / B ^ j := by
  have hlt : Nat.ofDigits B U / B ^ j < B ^ (D.length + 1) := by
    apply Nat.div_lt_of_lt_mul
    rw [← pow_add]
    have := h.U_lt
    rwa [show j + (D.length + 1) = j + D.length + 1 by omega]
  rw [divWindow, ← Nat.ofDigits_mod_pow_eq_ofDigits_take (D.length + 1) h.B_pos (U.drop j)
      (fun z hz => h.belowU z (List.mem_of_mem_drop hz)),
    ← Nat.ofDigits_div_pow_eq_ofDigits_drop j h.B_pos U h.belowU, Nat.mod_eq_of_lt hlt]

/-- The true quotient digit of position j. -/
abbrev trueDigit (B : Nat) (D U : List Nat) (j : Nat) : Nat := Nat.ofDigits B U / B ^ j / Nat.ofDigits B D

theorem DivCtx.trueDigit_lt (h : DivCtx B D U j) : trueDigit B D U j < B := by
  rw [trueDigit, Nat.div_lt_iff_lt_mul h.D_pos]
  apply Nat.div_lt_of_lt_mul
  have := h.bound
  rw [pow_succ] at this
  linarith [this, show Nat.ofDigits B D * (B ^ j * B) = B ^ j * (B * Nat.ofDigits B D) by ring]

/-- The top digit of the window is at most the divisor's leading digit (R80). -/
theorem DivCtx.top_le (h : DivCtx B D U j) : Nat.ofDigits B U / B ^ (j + D.length) ≤ D.getD (D.length - 1) 0 := by
  apply Nat.lt_succ_iff.1
  rw [Nat.div_lt_iff_lt_mul (Nat.pow_pos h.B_pos)]
  calc Nat.ofDigits B U < Nat.ofDigits B D * B ^ (j + 1) := h.bound
    _ ≤ (D.getD (D.length - 1) 0 + 1) * B ^ (D.length - 1) * B ^ (j + 1) := Nat.mul_le_mul_right _ h.lt_lead.le
    _ = (D.getD (D.length - 1) 0 + 1) * B ^ (j + D.length) := by
      have := h.lenD
      rw [mul_assoc, ← pow_add]
      congr 2
      omega

/-- The two leading window digits as one number (R80). -/
theorem DivCtx.num_eq (h : DivCtx B D U j) :
    U.getD (j + D.length) 0 * B + U.getD (j + D.length - 1) 0 = Nat.ofDigits B U / B ^ (j + D.length - 1) := by
  have hn := h.lenD
  have hlt := h.U_lt
  have htop : Nat.ofDigits B U / B ^ (j + D.length) < B := by
    apply Nat.div_lt_of_lt_mul
    rwa [← pow_succ]
  rw [getD_eq h.belowU, getD_eq h.belowU, Nat.mod_eq_of_lt htop]
  have : Nat.ofDigits B U / B ^ (j + D.length) = Nat.ofDigits B U / B ^ (j + D.length - 1) / B := by
    rw [Nat.div_div_eq_div_mul, ← pow_succ]
    congr 2
    omega
  rw [this, mul_comm]
  exact Nat.div_add_mod _ _

/-- The estimate is not below the true digit (R80). -/
theorem DivCtx.trueDigit_le (h : DivCtx B D U j) :
    trueDigit B D U j ≤ (U.getD (j + D.length) 0 * B + U.getD (j + D.length - 1) 0) / D.getD (D.length - 1) 0 := by
  have hn := h.lenD
  rw [h.num_eq, Nat.div_div_eq_div_mul, trueDigit, Nat.div_div_eq_div_mul]
  apply Nat.div_le_div_left
  · calc B ^ (j + D.length - 1) * D.getD (D.length - 1) 0
        = B ^ j * (D.getD (D.length - 1) 0 * B ^ (D.length - 1)) := by
          rw [show j + D.length - 1 = j + (D.length - 1) by omega, pow_add]; ring
      _ ≤ B ^ j * Nat.ofDigits B D := Nat.mul_le_mul_left _ h.lead_le
  · exact Nat.mul_pos (Nat.pow_pos h.B_pos) h.lead

/-- An estimate that the first check finds too large is above the true digit (R81). -/
theorem DivCtx.failing_estimate (h : DivCtx B D U j) (q r : Nat)
    (hq : q * D.getD (D.length - 1) 0 + r = U.getD (j + D.length) 0 * B + U.getD (j + D.length - 1) 0)
    (h2 : 2 ≤ D.length) (hc : r * B + U.getD (j + D.length - 2) 0 < q * D.getD (D.length - 2) 0) :
    trueDigit B D U j < q := by
  have hB := h.B_pos
  rw [h.num_eq] at hq
  have hUU : Nat.ofDigits B U / B ^ (j + D.length - 2) =
      Nat.ofDigits B U / B ^ (j + D.length - 1) * B + U.getD (j + D.length - 2) 0 := by
    rw [getD_eq h.belowU, show j + D.length - 1 = j + D.length - 2 + 1 by omega, pow_succ, ← Nat.div_div_eq_div_mul, mul_comm]
    exact (Nat.div_add_mod _ _).symm
  have hDD : Nat.ofDigits B D / B ^ (D.length - 2) = D.getD (D.length - 1) 0 * B + D.getD (D.length - 2) 0 := by
    rw [← h.lead_eq, getD_eq h.belowD, show D.length - 1 = D.length - 2 + 1 by omega, pow_succ,
      ← Nat.div_div_eq_div_mul, mul_comm]
    exact (Nat.div_add_mod _ _).symm
  have hpow := Nat.pow_pos (n := D.length - 2) hB
  have hle : Nat.ofDigits B U / B ^ (j + D.length - 2) + 1 ≤ q * (Nat.ofDigits B D / B ^ (D.length - 2)) := by
    rw [hUU, hDD, ← hq]
    nlinarith
  rw [trueDigit, Nat.div_lt_iff_lt_mul h.D_pos]
  calc Nat.ofDigits B U / B ^ j
      < B ^ (D.length - 2) * (Nat.ofDigits B U / B ^ j / B ^ (D.length - 2) + 1) := Nat.lt_mul_div_succ _ hpow
    _ = B ^ (D.length - 2) * (Nat.ofDigits B U / B ^ (j + D.length - 2) + 1) := by
      rw [Nat.div_div_eq_div_mul, ← pow_add, show j + (D.length - 2) = j + D.length - 2 by omega]
    _ ≤ B ^ (D.length - 2) * (q * (Nat.ofDigits B D / B ^ (D.length - 2))) := Nat.mul_le_mul_left _ hle
    _ = q * (Nat.ofDigits B D / B ^ (D.length - 2) * B ^ (D.length - 2)) := by ring
    _ ≤ q * Nat.ofDigits B D := Nat.mul_le_mul_left _ (Nat.div_mul_le_self _ _)

/-- The accepted digit is the true quotient digit (R82). -/
theorem DivCtx.quotientDigit_eq (h : DivCtx B D U j) : quotientDigit B D U j = trueDigit B D U j := by
  have hB := h.B_pos
  have hlead := h.lead
  unfold quotientDigit
  simp only
  set d1 := D.getD (D.length - 1) 0 with hd1
  set num := U.getD (j + D.length) 0 * B + U.getD (j + D.length - 1) 0 with hnum
  have hsplit : num / d1 * d1 + num % d1 = num := by rw [mul_comm]; exact Nat.div_add_mod _ _
  have hnext : U.getD (j + D.length - 1) 0 < B := by rw [getD_eq h.belowU]; exact Nat.mod_lt _ hB
  have htop : U.getD (j + D.length) 0 ≤ d1 := by
    rw [getD_eq h.belowU]
    exact (Nat.mod_le _ _).trans h.top_le
  have hlt : firstCheck B D.length d1 (D.getD (D.length - 2) 0) (U.getD (j + D.length - 2) 0) (B / d1 + 2) (num / d1)
      (num % d1) < B := by
    apply firstCheck_lt hB
    by_cases hq : num / d1 < B
    · exact .inl hq
    · refine .inr ⟨num / d1 - B, by omega, ?_, ?_⟩
      · have h1 : (num / d1 - B) * d1 + B * d1 = num / d1 * d1 := by rw [← add_mul]; congr 1; omega
        have h2 : U.getD (j + D.length) 0 * B ≤ B * d1 := by rw [mul_comm B]; exact Nat.mul_le_mul_right _ htop
        omega
      · have h1 : (num / d1 - B) * d1 + B * d1 = num / d1 * d1 := by rw [← add_mul]; congr 1; omega
        have h2 : U.getD (j + D.length) 0 * B ≤ B * d1 := by rw [mul_comm B]; exact Nat.mul_le_mul_right _ htop
        have : num / d1 - B ≤ B / d1 := (Nat.le_div_iff_mul_le hlead).2 (by omega)
        omega
  have hge := le_firstCheck (n := D.length) (d2 := D.getD (D.length - 2) 0) (u2 := U.getD (j + D.length - 2) 0)
    h.trueDigit_lt h.failing_estimate (B / d1 + 2) (num / d1) (num % d1) hsplit h.trueDigit_le
  rw [secondCheck_eq h.belowD h.window_below h.window_length h.D_pos _ hlt, h.window_value]
  exact min_eq_right hge

/-- The in-place subtraction of the accepted product (R83). -/
theorem DivCtx.subtractTrial_spec (h : DivCtx B D U j) {q : Nat} (hq : q = trueDigit B D U j) :
    Below B (subtractTrial B D U j q) ∧ (subtractTrial B D U j q).length = U.length ∧
    Nat.ofDigits B (subtractTrial B D U j q) + q * Nat.ofDigits B D * B ^ j = Nat.ofDigits B U := by
  have hqB : q < B := hq ▸ h.trueDigit_lt
  have hP := scale_below hqB h.belowD
  have hle : q * Nat.ofDigits B D ≤ Nat.ofDigits B (divWindow D.length U j) := by
    rw [hq, h.window_value]
    exact Nat.div_mul_le_self _ _
  have hl : (divWindow D.length U j).length = (scale B q D).length := by rw [h.window_length, scale_length]
  obtain ⟨s1, s2, s3⟩ := subLoop_value _ _ 0 hl h.window_below hP (by omega)
  have slen := subLoop_length B _ _ 0 hl
  set r := subLoop B (divWindow D.length U j) (scale B q D) 0 with hr
  have hrlt := ofDigits_lt s1
  rw [slen] at hrlt
  rw [scale_value, mul_comm (Nat.ofDigits B D)] at s3
  have hborrow : r.2 = 0 := by
    by_contra hne
    have h1 : r.2 = 1 := by omega
    rw [h1] at s3
    omega
  rw [hborrow, Nat.zero_mul] at s3
  have hU : Nat.ofDigits B U = Nat.ofDigits B (U.take j) +
      B ^ j * (Nat.ofDigits B (divWindow D.length U j) + B ^ (D.length + 1) * Nat.ofDigits B (U.drop (j + D.length + 1))) := by
    have e1 : U = U.take j ++ (divWindow D.length U j ++ U.drop (j + D.length + 1)) := by
      have : U.drop (j + D.length + 1) = (U.drop j).drop (D.length + 1) := by rw [List.drop_drop]; congr 1
      rw [divWindow, this, List.take_append_drop, List.take_append_drop]
    have hj : (U.take j).length = j := by have := h.lenU; simp; omega
    conv_lhs => rw [e1, Nat.ofDigits_append, Nat.ofDigits_append, hj, h.window_length]
  have hj : (U.take j).length = j := by have := h.lenU; simp; omega
  have hform : subtractTrial B D U j q = U.take j ++ (r.1 ++ U.drop (j + D.length + 1)) := by
    rw [subtractTrial, List.append_assoc]
  rw [hform]
  refine ⟨?_, ?_, ?_⟩
  · intro z hz
    rcases List.mem_append.1 hz with hz | hz
    · exact h.belowU z (List.mem_of_mem_take hz)
    · rcases List.mem_append.1 hz with hz | hz
      · exact s1 z hz
      · exact h.belowU z (List.mem_of_mem_drop hz)
  · have := h.lenU
    rw [List.length_append, List.length_append, slen, h.window_length, hj, List.length_drop]
    omega
  · rw [Nat.ofDigits_append, Nat.ofDigits_append, hj, slen, h.window_length, hU]
    have : Nat.ofDigits B (divWindow D.length U j) = Nat.ofDigits B r.1 + q * Nat.ofDigits B D := by omega
    rw [this]
    ring

/-! ### The loop -/

theorem divLoop_spec : ∀ (j : Nat) (U : List Nat), 2 ≤ B → Below B D → 0 < D.length → 0 < D.getD (D.length - 1) 0 →
    Below B U → j + D.length ≤ U.length → Nat.ofDigits B U < Nat.ofDigits B D * B ^ j →
    (divLoop B D j U).1.length = j ∧ Below B (divLoop B D j U).1 ∧
    Nat.ofDigits B (divLoop B D j U).2 < Nat.ofDigits B D ∧
    val B (divLoop B D j U).1 * Nat.ofDigits B D + Nat.ofDigits B (divLoop B D j U).2 = Nat.ofDigits B U
  | 0, U, _, _, _, _, _, _, hlt => by
    refine ⟨rfl, by intro z hz; simp [divLoop] at hz, by simpa [divLoop] using hlt, by simp [divLoop, val]⟩
  | j + 1, U, hB, hD, hlen, hlead, hU, hl, hlt => by
    have ctx : DivCtx B D U j := ⟨hB, hD, hU, hlen, by omega, hlead, hlt⟩
    have hq := ctx.quotientDigit_eq
    obtain ⟨s1, s2, s3⟩ := ctx.subtractTrial_spec hq
    have hqB : quotientDigit B D U j < B := hq ▸ ctx.trueDigit_lt
    have hpj : 0 < B ^ j := Nat.pow_pos ctx.B_pos
    have hlt' : Nat.ofDigits B (subtractTrial B D U j (quotientDigit B D U j)) < Nat.ofDigits B D * B ^ j := by
      have h1 := Nat.lt_div_mul_add (a := Nat.ofDigits B U / B ^ j) ctx.D_pos
      have h2 := Nat.lt_div_mul_add (a := Nat.ofDigits B U) hpj
      rw [show Nat.ofDigits B U / B ^ j / Nat.ofDigits B D = quotientDigit B D U j from hq.symm] at h1
      have h3 := Nat.mul_le_mul_right (B ^ j) (Nat.succ_le_of_lt h1)
      rw [Nat.succ_mul, add_mul] at h3
      omega
    obtain ⟨i1, i2, i3, i4⟩ := divLoop_spec j (subtractTrial B D U j (quotientDigit B D U j)) hB hD hlen hlead s1
      (by omega) hlt'
    simp only [divLoop]
    refine ⟨by simp [i1], ?_, i3, ?_⟩
    · intro z hz
      rcases List.mem_cons.1 hz with rfl | hz
      · exact hqB
      · exact i2 z hz
    · rw [val, i1, add_mul, ← s3, ← i4]
      ring

/-! ### The whole divider -/

theorem scaleFactor_bounds {B lead : Nat} (h1 : 0 < lead) (h2 : lead < B) :
    0 < scaleFactor B lead ∧ scaleFactor B lead < B ∧ (lead + 1) * scaleFactor B lead ≤ B := by
  refine ⟨Nat.div_pos h2 (by omega), ?_, Nat.mul_div_le _ _⟩
  calc B / (lead + 1) ≤ B / 2 := Nat.div_le_div_left (by omega) (by omega)
    _ < B := by omega

theorem algorithmD_eq {c : Config} {a b : DigitArray} (ha : ArrayOk c a) (hb : ArrayOk c b)
    (hpos : 0 < val c.B b) (hlt : val c.B b < val c.B a) :
    algorithmD c a b = arr c (val c.B a / val c.B b) := by
  have hB := two_le_B c
  have hB0 := B_pos c
  obtain ⟨la, ba⟩ := (arrayOk_iff c a).1 ha
  obtain ⟨lb, bb⟩ := (arrayOk_iff c b).1 hb
  have hm : 0 < msd a := Nat.pos_of_ne_zero (fun h => by have := (msd_eq_zero_iff hB0 ba).1 h; omega)
  have hn : 0 < msd b := Nat.pos_of_ne_zero (fun h => by have := (msd_eq_zero_iff hB0 bb).1 h; omega)
  have hmN : msd a ≤ c.N := la ▸ msd_le a
  have hnN : msd b ≤ c.N := lb ▸ msd_le b
  have hav := val_lt_pow_msd hB0 ba
  have hbv := pow_msd_le_val hB0 hn
  have hnm : msd b ≤ msd a := by
    by_contra hgt
    have : c.B ^ msd a ≤ c.B ^ (msd b - 1) := Nat.pow_le_pow_right hB0 (by omega)
    omega
  obtain ⟨hlead, hlead'⟩ := lead_bounds hB0 bb hn
  have hleadB := dig_lt bb hB0 (msd b - 1)
  set m := msd a
  set n := msd b
  set lead := dig b (n - 1)
  obtain ⟨hf0, hfB, hfl⟩ := scaleFactor_bounds hlead hleadB
  set f := scaleFactor c.B lead
  -- the scaled divisor still has n digits
  have hDlt : val c.B b * f < c.B ^ n := by
    calc val c.B b * f < (lead + 1) * c.B ^ (n - 1) * f := Nat.mul_lt_mul_of_pos_right hlead' hf0
      _ = (lead + 1) * f * c.B ^ (n - 1) := by ring
      _ ≤ c.B * c.B ^ (n - 1) := Nat.mul_le_mul_right _ hfl
      _ = c.B ^ n := by rw [mul_comm, ← pow_succ, Nat.sub_add_cancel hn]
  have hUb := scale_below hfB ba.reverse
  have hSb := scale_below hfB bb.reverse
  have hUv : Nat.ofDigits c.B (scale c.B f a.reverse) = val c.B a * f := by rw [scale_value, val_eq_ofDigits]
  have hDv : Nat.ofDigits c.B ((scale c.B f b.reverse).take n) = val c.B b * f := by
    rw [← Nat.ofDigits_mod_pow_eq_ofDigits_take n hB0 _ hSb, scale_value, ← val_eq_ofDigits, Nat.mod_eq_of_lt hDlt]
  have hDb : Below c.B ((scale c.B f b.reverse).take n) := fun z hz => hSb z (List.mem_of_mem_take hz)
  have hDl : ((scale c.B f b.reverse).take n).length = n := by
    rw [List.length_take, scale_length, List.length_reverse, lb]; omega
  have hUl : (scale c.B f a.reverse).length = c.N + 1 := by rw [scale_length, List.length_reverse, la]
  have hDlead : 0 < ((scale c.B f b.reverse).take n).getD (((scale c.B f b.reverse).take n).length - 1) 0 := by
    rw [getD_eq hDb, hDl, hDv, Nat.mod_eq_of_lt]
    · exact Nat.div_pos (hbv.trans (Nat.le_mul_of_pos_right _ hf0)) (Nat.pow_pos hB0)
    · apply Nat.div_lt_of_lt_mul
      rwa [← pow_succ, Nat.sub_add_cancel hn]
  have hbound : Nat.ofDigits c.B (scale c.B f a.reverse) <
      Nat.ofDigits c.B ((scale c.B f b.reverse).take n) * c.B ^ (m - n + 1) := by
    rw [hUv, hDv]
    calc val c.B a * f < c.B ^ m * f := Nat.mul_lt_mul_of_pos_right hav hf0
      _ = c.B ^ (n - 1) * c.B ^ (m - n + 1) * f := by rw [← pow_add]; congr 2; omega
      _ ≤ val c.B b * c.B ^ (m - n + 1) * f := Nat.mul_le_mul_right _ (Nat.mul_le_mul_right _ hbv)
      _ = val c.B b * f * c.B ^ (m - n + 1) := by ring
  obtain ⟨q1, q2, q3, q4⟩ := divLoop_spec (m - n + 1) _ hB hDb (by omega) hDlead hUb (by omega) hbound
  set L := divLoop c.B ((scale c.B f b.reverse).take n) (m - n + 1) (scale c.B f a.reverse) with hL
  rw [hUv, hDv] at q4
  rw [hDv] at q3
  have hform : algorithmD c a b = List.replicate (c.N - (m - n + 1)) 0 ++ L.1 := rfl
  have hval : val c.B L.1 = val c.B a / val c.B b := by
    rw [← Nat.mul_div_mul_right _ _ hf0, ← q4, mul_comm, Nat.mul_add_div (Nat.mul_pos hpos hf0), Nat.div_eq_of_lt q3,
      Nat.add_zero]
  have hok : ArrayOk c (List.replicate (c.N - (m - n + 1)) 0 ++ L.1) := by
    refine (arrayOk_iff c _).2 ⟨by rw [List.length_append, List.length_replicate, q1]; omega, ?_⟩
    intro z hz
    rcases List.mem_append.1 hz with hz | hz
    · rw [List.eq_of_mem_replicate hz]; exact hB0
    · exact q2 z hz
  rw [hform]
  refine eq_arr hok ?_
  rw [val_append, val_replicate_zero, Nat.zero_mul, Nat.zero_add, hval, Nat.mod_eq_of_lt]
  exact (Nat.div_le_self _ _).trans_lt (val_lt_CAP ha)

/-- The divider returns the floor quotient, and zero for a zero divisor (R75, R88). -/
theorem divArrays_eq {c : Config} {a b : DigitArray} (ha : ArrayOk c a) (hb : ArrayOk c b) :
    divArrays c a b = arr c (val c.B a / val c.B b) := by
  have h1CAP := two_le_CAP c
  have hv1 : val c.B (arr c 1) = 1 := by rw [val_arr, Nat.mod_eq_of_lt (by omega)]
  unfold divArrays
  split
  case isTrue h => rw [(isZero_iff ha).1 h, Nat.zero_div, zeroArray_eq]
  case isFalse h =>
    split
    case isTrue h => rw [(isZero_iff hb).1 h, Nat.div_zero, zeroArray_eq]
    case isFalse h' =>
      rw [isZero_iff ha] at h
      rw [isZero_iff hb] at h'
      rw [cmp_eq hb ha]
      split
      case h_1 h3 => rw [Nat.div_eq_of_lt (compare_gt_iff_gt.1 h3), zeroArray_eq]
      case h_2 h3 => rw [compare_eq_iff_eq.1 h3, Nat.div_self (by omega)]
      case h_3 h3 =>
        have hlt := compare_lt_iff_lt.1 h3
        rw [cmp_eq hb (arr_ok c 1), hv1]
        split
        case isTrue h4 => rw [compare_eq_iff_eq.1 h4, Nat.div_one, arr_val ha]
        case isFalse => exact algorithmD_eq ha hb (by omega) hlt

theorem divArrays_ok {c : Config} {a b : DigitArray} (ha : ArrayOk c a) (hb : ArrayOk c b) : ArrayOk c (divArrays c a b) := by
  rw [divArrays_eq ha hb]
  exact arr_ok c _

/-- The modulus, zero for a zero divisor (R76, R88). -/
theorem modArrays_eq {c : Config} {a b : DigitArray} (ha : ArrayOk c a) (hb : ArrayOk c b) :
    modArrays c a b = arr c (if val c.B b = 0 then 0 else val c.B a % val c.B b) := by
  unfold modArrays
  by_cases h : val c.B b = 0
  · rw [if_pos ((isZero_iff hb).2 h), if_pos h, zeroArray_eq]
  · have hd := divArrays_ok ha hb
    have hdv : val c.B (divArrays c a b) = val c.B a / val c.B b := by
      rw [divArrays_eq ha hb, val_arr, Nat.mod_eq_of_lt ((Nat.div_le_self _ _).trans_lt (val_lt_CAP ha))]
    have hmul : val c.B a / val c.B b * val c.B b ≤ val c.B a := Nat.div_mul_le_self _ _
    have hmv : val c.B (mulArrays c (divArrays c a b) b) = val c.B a / val c.B b * val c.B b := by
      rw [mulArrays_eq hd hb, val_arr, hdv, Nat.mod_eq_of_lt (hmul.trans_lt (val_lt_CAP ha))]
    rw [if_neg (by rw [isZero_iff hb]; exact h), if_neg h, subArrays_of_le ha (mulArrays_ok hd) (by rw [hmv]; exact hmul),
      hmv]
    congr 1
    have := Nat.div_add_mod' (val c.B a) (val c.B b)
    omega

theorem modArrays_ok {c : Config} {a b : DigitArray} (ha : ArrayOk c a) (hb : ArrayOk c b) : ArrayOk c (modArrays c a b) := by
  rw [modArrays_eq ha hb]
  exact arr_ok c _

end Sys2Proof.Laws
end

