-- ==== Sys2Proof/Laws/Power.lean ====
section
/-! SUPPORT. Square-and-multiply as R91 gives it computes the power of R90 in every configuration with CAP >= 3. -/

namespace Sys2Proof.Laws

open Sys2Proof Sys2Proof.Machine

theorem arr_congr {c : Config} {m n : Nat} (h : m ≡ n [MOD c.CAP]) : arr c m = arr c n := by
  rw [← arr_mod c m, ← arr_mod c n, h]

/-- The loop of R91 with enough turns for the exponent's binary digits. -/
theorem powLoop_eq {c : Config} (h3 : 3 ≤ c.CAP) : ∀ (fuel : Nat) {r s x : DigitArray}, ArrayOk c r → ArrayOk c s →
    ArrayOk c x → val c.B x < 2 ^ fuel → powLoop c (arr c 2) fuel r s x = arr c (val c.B r * val c.B s ^ val c.B x)
  | 0, r, s, x, hr, _, _, hlt => by
    have : val c.B x = 0 := by simpa using hlt
    rw [this, pow_zero, mul_one, powLoop, arr_val hr]
  | fuel + 1, r, s, x, hr, hs, hx, hlt => by
    have h2 : val c.B (arr c 2) = 2 := by rw [val_arr, Nat.mod_eq_of_lt (by omega)]
    have hmod := modArrays_eq hx (arr_ok c 2)
    have hdiv := divArrays_eq hx (arr_ok c 2)
    rw [h2, if_neg (by decide)] at hmod
    rw [h2] at hdiv
    have hxlt := val_lt_CAP hx
    have hmv : val c.B (modArrays c x (arr c 2)) = val c.B x % 2 := by
      rw [hmod, val_arr, Nat.mod_eq_of_lt (by omega)]
    have hdv : val c.B (divArrays c x (arr c 2)) = val c.B x / 2 := by
      rw [hdiv, val_arr, Nat.mod_eq_of_lt (by omega)]
    have hss := mulArrays_ok (b := s) hs
    have hssv : val c.B (mulArrays c s s) ≡ val c.B s ^ 2 [MOD c.CAP] := by
      rw [mulArrays_eq hs hs, val_arr, pow_two]
      exact Nat.mod_modEq _ _
    have ih : ∀ r' : DigitArray, ArrayOk c r' → powLoop c (arr c 2) fuel r' (mulArrays c s s) (divArrays c x (arr c 2)) =
        arr c (val c.B r' * (val c.B s ^ 2) ^ (val c.B x / 2)) := by
      intro r' hr'
      rw [powLoop_eq h3 fuel hr' hss (divArrays_ok hx (arr_ok c 2)) (by rw [hdv]; omega), hdv]
      exact arr_congr ((Nat.ModEq.refl _).mul (hssv.pow _))
    unfold powLoop
    by_cases h0 : val c.B x = 0
    · rw [if_pos ((isZero_iff hx).2 h0), h0, pow_zero, mul_one, arr_val hr]
    · rw [if_neg (by rw [isZero_iff hx]; exact h0)]
      rcases Nat.mod_two_eq_zero_or_one (val c.B x) with hp | hp
      · rw [if_pos ((isZero_iff (modArrays_ok hx (arr_ok c 2))).2 (hmv.trans hp)), ih r hr, ← pow_mul]
        congr 3
        omega
      · rw [if_neg (by rw [isZero_iff (modArrays_ok hx (arr_ok c 2)), hmv]; omega), ih _ (mulArrays_ok hr)]
        apply arr_congr
        rw [mulArrays_eq hr hs, val_arr]
        calc val c.B r * val c.B s % c.CAP * (val c.B s ^ 2) ^ (val c.B x / 2)
            ≡ val c.B r * val c.B s * (val c.B s ^ 2) ^ (val c.B x / 2) [MOD c.CAP] := (Nat.mod_modEq _ _).mul_right _
          _ = val c.B r * val c.B s ^ (2 * (val c.B x / 2) + 1) := by rw [← pow_mul, pow_succ]; ring
          _ = val c.B r * val c.B s ^ val c.B x := by congr 2; omega

/-- R90, the case of exponent zero included. -/
theorem powArrays_eq {c : Config} (h : c.CAP ≠ 2) {a e : DigitArray} (ha : ArrayOk c a) (he : ArrayOk c e) :
    powArrays c a e = arr c (val c.B a ^ val c.B e) := by
  have h2 := two_le_CAP c
  rw [powArrays, powLoop_eq (by omega) (powFuel c) (arr_ok c 1) ha he ((val_lt_CAP he).trans_le (CAP_le c)), val_arr,
    Nat.mod_eq_of_lt (by omega), Nat.one_mul]

theorem powArrays_ok {c : Config} (h : c.CAP ≠ 2) {a e : DigitArray} (ha : ArrayOk c a) (he : ArrayOk c e) :
    ArrayOk c (powArrays c a e) := by
  rw [powArrays_eq h ha he]
  exact arr_ok c _

end Sys2Proof.Laws
end

