-- ==== Sys2Proof/Laws/Codec.lean ====
section
/-! SUPPORT. The loops of the string codec (R114, R116) as positional notation, and numerals as the assembler reads them. -/

namespace Sys2Proof.Laws

open Sys2Proof Sys2Proof.Machine

/-! ### Characters and digits (R113) -/

theorem charDigit_digitChar {d : Nat} (h : d < 16) : charDigit (digitChar d) = some d :=
  (by decide : ∀ d : Fin 16, charDigit (digitChar d) = some d.val) ⟨d, h⟩

theorem radix_bounds (b : TextBase) : 2 ≤ b.radix ∧ b.radix ≤ 16 := by cases b <;> decide

/-- A text whose characters are the digits `ds` of a radix, in the same order. -/
abbrev TextDigits (radix : Nat) (text : List Char) (ds : List Nat) : Prop :=
  text.map charDigit = ds.map some ∧ ∀ d ∈ ds, d < radix

theorem TextDigits.reverse {radix : Nat} {text : List Char} {ds : List Nat} (h : TextDigits radix text ds) :
    TextDigits radix text.reverse ds.reverse :=
  ⟨by rw [List.map_reverse, h.1, List.map_reverse], fun d hd => h.2 d (by simpa using hd)⟩

theorem textDigits_digitChar {radix : Nat} (hr : radix ≤ 16) {ds : List Nat} (h : ∀ d ∈ ds, d < radix) :
    TextDigits radix (ds.map digitChar) ds := by
  refine ⟨?_, h⟩
  rw [List.map_map]
  exact List.map_congr_left fun d hd => charDigit_digitChar ((h d hd).trans_le hr)

/-! ### Numerals -/

/-- The step of the numeral reader. -/
def numeralStep (radix : Nat) (acc : Option Nat) (ch : Char) : Option Nat :=
  match acc, charDigit ch with
  | some n, some d => if d < radix then some (n * radix + d) else none
  | _, _ => none

theorem numeral_cons (radix : Nat) (ch : Char) (text : List Char) :
    numeral radix (ch :: text) = (ch :: text).foldl (numeralStep radix) (some 0) := rfl

theorem numeralStep_none (radix : Nat) (text : List Char) : text.foldl (numeralStep radix) none = none := by
  induction text with
  | nil => rfl
  | cons ch text ih => rw [List.foldl_cons]; exact ih

/-- A numeral that reads as n has digits, and n is their value. -/
theorem numeralStep_eq (radix : Nat) : ∀ (text : List Char) (k n : Nat),
    text.foldl (numeralStep radix) (some k) = some n ↔
      ∃ ds, TextDigits radix text ds ∧ n = k * radix ^ text.length + Nat.ofDigits radix ds.reverse
  | [], k, n => by
    constructor
    · intro h
      cases h
      exact ⟨[], ⟨rfl, by simp⟩, by simp⟩
    · rintro ⟨ds, ⟨h, -⟩, rfl⟩
      have : ds = [] := by simpa using h.symm
      simp [this]
  | ch :: text, k, n => by
    rw [List.foldl_cons, List.length_cons]
    match hd : charDigit ch with
    | none =>
      rw [show numeralStep radix (some k) ch = none by simp [numeralStep, hd], numeralStep_none]
      refine ⟨fun h => (Option.some_ne_none _ h.symm).elim, ?_⟩
      rintro ⟨_ | ⟨d, ds⟩, ⟨h, -⟩, -⟩ <;> simp [hd] at h
    | some d =>
      by_cases hlt : d < radix
      · rw [show numeralStep radix (some k) ch = some (k * radix + d) by simp [numeralStep, hd, hlt],
          numeralStep_eq radix text]
        constructor
        · rintro ⟨ds, ⟨h, h'⟩, rfl⟩
          refine ⟨d :: ds, ⟨by simp [hd, h], by simpa [hlt] using h'⟩, ?_⟩
          have hl : text.length = ds.length := by simpa using congrArg List.length h
          rw [List.reverse_cons, Nat.ofDigits_append, List.length_reverse, Nat.ofDigits_singleton, hl, pow_succ]
          ring
        · rintro ⟨_ | ⟨e, ds⟩, ⟨h, h'⟩, rfl⟩
          · simp at h
          · simp only [List.map_cons, hd, List.cons.injEq, Option.some.injEq] at h
            obtain ⟨rfl, h⟩ := h
            refine ⟨ds, ⟨h, fun x hx => h' x (by simp [hx])⟩, ?_⟩
            have hl : text.length = ds.length := by simpa using congrArg List.length h
            rw [List.reverse_cons, Nat.ofDigits_append, List.length_reverse, Nat.ofDigits_singleton, hl, pow_succ]
            ring
      · rw [show numeralStep radix (some k) ch = none by simp [numeralStep, hd, hlt], numeralStep_none]
        refine ⟨fun h => (Option.some_ne_none _ h.symm).elim, ?_⟩
        rintro ⟨_ | ⟨e, ds⟩, ⟨h, h'⟩, -⟩
        · simp at h
        · simp only [List.map_cons, hd, List.cons.injEq, Option.some.injEq] at h
          exact absurd (h' e (by simp)) (h.1 ▸ hlt)

/-- What a numeral reads as: the value of its digits, most significant first. -/
theorem numeral_eq {radix n : Nat} {text : List Char} :
    numeral radix text = some n ↔
      text ≠ [] ∧ ∃ ds, TextDigits radix text ds ∧ n = Nat.ofDigits radix ds.reverse := by
  match text with
  | [] => simp [numeral]
  | ch :: text => rw [numeral_cons, numeralStep_eq]; simp

/-! ### The codec loops -/

/-- R116: the loop adds place times the value of the digits, least significant first, modulo CAP. -/
theorem fromTextLoop_eq (c : Config) {radix : Nat} (hr : radix < c.CAP) :
    ∀ (text : List Char) (ds : List Nat) (a p : Nat), TextDigits radix text ds →
      fromTextLoop c radix text (arr c a) (arr c p) = some (arr c (a + p * Nat.ofDigits radix ds))
  | [], ds, a, p, h => by
    have : ds = [] := by simpa using h.1.symm
    simp [this, fromTextLoop]
  | ch :: text, [], _, _, h => by simp [TextDigits] at h
  | ch :: text, d :: ds, a, p, ⟨h, h'⟩ => by
    simp only [List.map_cons, List.cons.injEq] at h
    have hd : d < radix := h' d (by simp)
    have hplace : ∀ k, k < c.CAP → mulArrays c (arr c p) (arr c k) = arr c (p * k) := by
      intro k hk
      rw [mulArrays_eq (arr_ok c p) (arr_ok c k), val_arr, val_arr, Nat.mod_eq_of_lt hk]
      exact arr_congr ((Nat.mod_modEq _ _).mul_right _)
    have hacc : addArrays c (arr c a) (arr c (p * d)) = arr c (a + p * d) := by
      rw [addArrays_eq (arr_ok c a) (arr_ok c _), val_arr, val_arr]
      exact arr_congr ((Nat.mod_modEq _ _).add (Nat.mod_modEq _ _))
    rw [fromTextLoop, h.1]
    simp only [if_neg (not_le.2 hd)]
    rw [hplace d (hd.trans hr), hplace radix hr, hacc,
      fromTextLoop_eq c hr text ds (a + p * d) (p * radix) ⟨h.2, fun x hx => h' x (by simp [hx])⟩,
      Nat.ofDigits_cons]
    congr 2
    ring

/-- R114: the loop collects the digits of the value, least significant first. -/
theorem toTextLoop_eq (c : Config) {radix : Nat} (h2 : 2 ≤ radix) (hr : radix < c.CAP) :
    ∀ (fuel : Nat) (x : DigitArray), ArrayOk c x → val c.B x < 2 ^ fuel →
      toTextLoop c (arr c radix) fuel x = (Nat.digits radix (val c.B x)).map digitChar
  | 0, x, _, hx => by
    have : val c.B x = 0 := by simpa using hx
    simp [toTextLoop, this]
  | fuel + 1, x, hok, hx => by
    have hb : val c.B (arr c radix) = radix := by rw [val_arr, Nat.mod_eq_of_lt hr]
    have hlt := val_lt_CAP hok
    rw [toTextLoop]
    by_cases hz : val c.B x = 0
    · rw [if_pos ((isZero_iff hok).2 hz), hz]
      simp
    · have hdiv : val c.B (divArrays c x (arr c radix)) = val c.B x / radix := by
        rw [divArrays_eq hok (arr_ok c radix), val_arr, hb]
        exact Nat.mod_eq_of_lt ((Nat.div_le_self _ _).trans_lt hlt)
      have hmod : val c.B (modArrays c x (arr c radix)) = val c.B x % radix := by
        rw [modArrays_eq hok (arr_ok c radix), val_arr, hb, if_neg (by omega)]
        exact Nat.mod_eq_of_lt ((Nat.mod_le _ _).trans_lt hlt)
      have hfuel : val c.B x / radix < 2 ^ fuel := by
        rw [Nat.div_lt_iff_lt_mul (by omega)]
        rw [pow_succ] at hx
        exact hx.trans_le (Nat.mul_le_mul_left _ h2)
      rw [if_neg (fun hc => hz ((isZero_iff hok).1 hc)), hmod,
        toTextLoop_eq c h2 hr fuel _ (divArrays_ok hok (arr_ok c radix)) (by rw [hdiv]; exact hfuel), hdiv,
        Nat.digits_def' (by omega) (Nat.pos_of_ne_zero hz), List.map_cons]

/-- A character that is no digit of the radix ends the scan without a value (R117). -/
theorem fromTextLoop_none (c : Config) (radix : Nat) : ∀ (text : List Char) (acc place : DigitArray),
    (∃ ch ∈ text, ∀ d, charDigit ch = some d → radix ≤ d) → fromTextLoop c radix text acc place = none
  | [], _, _, ⟨_, h, _⟩ => by simp at h
  | ch :: text, acc, place, ⟨bad, hm, hb⟩ => by
    rw [fromTextLoop]
    match hd : charDigit ch with
    | none => rfl
    | some d =>
      simp only
      split
      · rfl
      case isFalse hlt =>
        rcases List.mem_cons.1 hm with rfl | hm
        · exact absurd (hb d hd) hlt
        · exact fromTextLoop_none c radix text _ _ ⟨bad, hm, hb⟩

end Sys2Proof.Laws
end

