-- ==== Sys2Proof/Laws/Assembler.lean ====
section
/-! SUPPORT. The pieces of an assembler line (R47): white space, commas, registers and scalars as written. -/

namespace Sys2Proof.Laws

open Sys2Proof Sys2Proof.Machine

/-- A character that ends nothing: no white space, no comma, no semicolon. -/
abbrev Plain (ch : Char) : Prop := isStreamSpace ch = false ∧ ch ≠ ',' ∧ ch ≠ ';'

/-- A text that neither begins nor ends with white space is left as it is. -/
theorem trimSpace_eq {text : List Char} (h : ∀ ch ∈ text.head?, isStreamSpace ch = false)
    (h' : ∀ ch ∈ text.getLast?, isStreamSpace ch = false) : trimSpace text = text := by
  have hdrop : ∀ l : List Char, (∀ ch ∈ l.head?, isStreamSpace ch = false) → l.dropWhile isStreamSpace = l := by
    intro l hl
    cases l with
    | nil => rfl
    | cons ch l => rw [List.dropWhile_cons_of_neg]; simpa using hl ch (by simp)
  rw [trimSpace, hdrop text h, hdrop text.reverse (by rwa [List.head?_reverse]), List.reverse_reverse]

theorem trimSpace_space (text : List Char) : trimSpace (' ' :: text) = trimSpace text := by
  rw [trimSpace, List.dropWhile_cons_of_pos (by decide), trimSpace]

theorem trimSpace_plain {text : List Char} (h : ∀ ch ∈ text, Plain ch) : trimSpace text = text :=
  trimSpace_eq (fun ch hc => (h ch (List.mem_of_mem_head? hc)).1) (fun ch hc => (h ch (List.mem_of_mem_getLast? hc)).1)

theorem splitCommas_plain {text : List Char} (h : ∀ ch ∈ text, ch ≠ ',') : splitCommas text = [text] := by
  induction text with
  | nil => rfl
  | cons ch text ih =>
    rw [splitCommas, if_neg (h ch (by simp)), ih (fun x hx => h x (by simp [hx]))]

theorem splitCommas_append {text : List Char} (h : ∀ ch ∈ text, ch ≠ ',') (rest : List Char) :
    splitCommas (text ++ ',' :: rest) = text :: splitCommas rest := by
  induction text with
  | nil => simp [splitCommas]
  | cons ch text ih =>
    rw [List.cons_append, splitCommas, if_neg (h ch (by simp)), ih (fun x hx => h x (by simp [hx]))]

/-! ### Scalars and registers -/

/-- The digits of a decimal numeral, most significant first. -/
theorem textDigits_decimalText (n : Nat) : ∃ ds, TextDigits 10 (decimalText n) ds ∧ Nat.ofDigits 10 ds.reverse = n := by
  induction n using Nat.strong_induction_on with
  | _ n ih =>
    rw [decimalText, Nat.toDigits_eq_if (by decide)]
    split
    case isTrue h =>
      refine ⟨[n], ⟨?_, by simpa using h⟩, by simp⟩
      have : ∀ k : Fin 10, charDigit (Nat.digitChar k) = some k.val := by decide
      simpa using this ⟨n, h⟩
    case isFalse h =>
      obtain ⟨ds, ⟨h1, h2⟩, hv⟩ := ih (n / 10) (by omega)
      have hd : ∀ k : Fin 10, charDigit (Nat.digitChar k) = some k.val := by decide
      refine ⟨ds ++ [n % 10], ⟨?_, ?_⟩, ?_⟩
      · rw [List.map_append, show (Nat.toDigits 10 (n / 10)).map charDigit = ds.map some from h1]
        simpa using hd ⟨n % 10, by omega⟩
      · intro d hm
        rcases List.mem_append.1 hm with hm | hm
        · exact h2 d hm
        · simp at hm; omega
      · rw [List.reverse_append, List.reverse_singleton, List.singleton_append, Nat.ofDigits_cons, hv]
        exact Nat.mod_add_div n 10

theorem decimalText_ne_nil (n : Nat) : decimalText n ≠ [] := Nat.toDigits_ne_nil

theorem numeral_decimalText (n : Nat) : numeral 10 (decimalText n) = some n := by
  obtain ⟨ds, h, hv⟩ := textDigits_decimalText n
  exact numeral_eq.2 ⟨decimalText_ne_nil n, ds, h, hv.symm⟩

theorem charDigit_plain {ch : Char} {d : Nat} (h : charDigit ch = some d) : Plain ch ∧ ch ≠ 'x' := by
  have key : ∀ ch : Char, (isStreamSpace ch = true ∨ ch = ',' ∨ ch = ';' ∨ ch = 'x') → charDigit ch = none := by
    rintro ch (hs | rfl | rfl | rfl)
    · simp only [isStreamSpace, Bool.or_eq_true, Bool.and_eq_true, decide_eq_true_eq] at hs
      simp only [charDigit]
      rw [if_neg (by omega), if_neg (by omega), if_neg (by omega)]
    all_goals decide
  refine ⟨⟨?_, ?_, ?_⟩, ?_⟩
  · by_contra hc
    rw [key ch (.inl (by simpa using hc))] at h
    cases h
  all_goals
    rintro rfl
    rw [key _ (by simp)] at h
    cases h

theorem decimalText_plain {n : Nat} {ch : Char} (h : ch ∈ decimalText n) : Plain ch ∧ ch ≠ 'x' := by
  obtain ⟨ds, ⟨hd, -⟩, -⟩ := textDigits_decimalText n
  have hm : charDigit ch ∈ ds.map some := hd ▸ List.mem_map_of_mem h
  obtain ⟨d, -, hd⟩ := List.mem_map.1 hm
  exact charDigit_plain hd.symm

theorem operandText_plain (o : AsmOperand) {ch : Char} (h : ch ∈ operandText o) : Plain ch := by
  cases o with
  | reg r =>
    rcases List.mem_cons.1 h with rfl | h
    · decide
    · exact (decimalText_plain h).1
  | scalar x =>
    rcases List.mem_cons.1 h with rfl | h
    · decide
    · exact (decimalText_plain h).1

theorem operandText_ne_nil (o : AsmOperand) : operandText o ≠ [] := by cases o <;> simp [operandText, regText]

theorem parseScalar_decimal (x : Nat) : parseScalar ('#' :: decimalText x) = some x := by
  have hn := numeral_decimalText x
  have hx : ∀ ch ∈ decimalText x, ch ≠ 'x' := fun ch h => (decimalText_plain h).2
  unfold parseScalar
  split
  case h_1 rest he =>
    rw [List.cons.injEq] at he
    exact absurd rfl (hx 'x' (by rw [he.2]; simp))
  case h_2 rest _ he =>
    rw [List.cons.injEq] at he
    rw [← he.2, hn]
  case h_3 h => exact absurd rfl (h _)

/-- An operand as written is read back. -/
theorem parseOperand_operandText (o : AsmOperand) : parseOperand (operandText o) = some o := by
  cases o with
  | reg r => exact (by decide : ∀ r : Reg, parseOperand (operandText (.reg r)) = some (.reg r)) r
  | scalar x =>
    have : parseReg (operandText (.scalar x)) = none := by
      rw [parseReg, List.find?_eq_none]
      intro r _
      simp [operandText, regText]
    rw [parseOperand, this, operandText, parseScalar_decimal]
    rfl

/-! ### Mnemonics -/

/-- The mnemonic's characters written out. -/
def mnemonicChars : Instr → List Char
  | .zero _ => ['Z', 'E', 'R', 'O']
  | .ldn _ _ => ['L', 'D', 'N']
  | .mov _ _ => ['M', 'O', 'V']
  | .stn _ => ['S', 'T', 'N']
  | .getd _ _ => ['G', 'E', 'T', 'D']
  | .setd _ _ _ => ['S', 'E', 'T', 'D']
  | .msd _ => ['M', 'S', 'D']
  | .add _ _ _ => ['A', 'D', 'D']
  | .sub _ _ _ => ['S', 'U', 'B']
  | .mul _ _ _ => ['M', 'U', 'L']
  | .div _ _ _ => ['D', 'I', 'V']
  | .mod _ _ _ => ['M', 'O', 'D']
  | .pow _ _ _ => ['P', 'O', 'W']
  | .cmp _ _ => ['C', 'M', 'P']

theorem mnemonic_toList (i : Instr) : i.mnemonic.toList = mnemonicChars i := by
  cases i <;> simp [Instr.mnemonic, mnemonicChars]

theorem mnemonicChars_plain (i : Instr) : mnemonicChars i ≠ [] ∧ ∀ ch ∈ mnemonicChars i, Plain ch := by
  cases i <;> simp [mnemonicChars] <;> decide

/-- The mnemonic and the operands that R47 writes for an instruction build it. -/
theorem buildCommand_operands (i : Instr) : buildCommand (mnemonicChars i) (Sys2Proof.Machine.Instr.operands i) = some i := by
  cases i <;> rfl

end Sys2Proof.Laws
end

