-- ==== Sys2Proof/Laws/Encoding.lean ====
section
/-! SUPPORT. The fields of a word put together by format C, and the word of its fields (R38). -/

namespace Sys2Proof.Laws

open Sys2Proof

/-- The bits of a format C word, field by field. -/
theorem formatC_bit (op : BitVec 4) (rd rs1 rs2 : Reg) (k : Nat) : (formatC op rd rs1 rs2).getLsbD k =
    if k < 4 then (BitVec.ofFin rs2 : BitVec 4).getLsbD k
    else if k - 4 < 4 then (BitVec.ofFin rs1 : BitVec 4).getLsbD (k - 4)
    else if k - 4 - 4 < 4 then (BitVec.ofFin rd : BitVec 4).getLsbD (k - 4 - 4)
    else op.getLsbD (k - 4 - 4 - 4) := by
  refine BitVec.getLsbD_append.trans ?_
  split
  · rfl
  refine BitVec.getLsbD_append.trans ?_
  split
  · rfl
  exact BitVec.getLsbD_append

theorem opField_formatC (op : BitVec 4) (rd rs1 rs2 : Reg) : opField (formatC op rd rs1 rs2) = op := by
  apply BitVec.eq_of_getLsbD_eq
  intro i hi
  rw [opField, BitVec.getLsbD_extractLsb', formatC_bit, if_neg (by omega), if_neg (by omega), if_neg (by omega)]
  simp [hi, show 12 + i - 4 - 4 - 4 = i by omega]

theorem rdField_formatC (op : BitVec 4) (rd rs1 rs2 : Reg) : rdField (formatC op rd rs1 rs2) = rd := by
  have : (formatC op rd rs1 rs2).extractLsb' 8 4 = BitVec.ofFin rd := by
    apply BitVec.eq_of_getLsbD_eq
    intro i hi
    rw [BitVec.getLsbD_extractLsb', formatC_bit, if_neg (by omega), if_neg (by omega), if_pos (by omega)]
    rw [show 8 + i - 4 - 4 = i by omega]
    simp [hi]
  rw [rdField, this]

theorem rs1Field_formatC (op : BitVec 4) (rd rs1 rs2 : Reg) : rs1Field (formatC op rd rs1 rs2) = rs1 := by
  have : (formatC op rd rs1 rs2).extractLsb' 4 4 = BitVec.ofFin rs1 := by
    apply BitVec.eq_of_getLsbD_eq
    intro i hi
    rw [BitVec.getLsbD_extractLsb', formatC_bit, if_neg (by omega), if_pos (by omega)]
    rw [show 4 + i - 4 = i by omega]
    simp [hi]
  rw [rs1Field, this]

theorem rs2Field_formatC (op : BitVec 4) (rd rs1 rs2 : Reg) : rs2Field (formatC op rd rs1 rs2) = rs2 := by
  have : (formatC op rd rs1 rs2).extractLsb' 0 4 = BitVec.ofFin rs2 := by
    apply BitVec.eq_of_getLsbD_eq
    intro i hi
    rw [BitVec.getLsbD_extractLsb', formatC_bit, if_pos (by omega)]
    simp [hi]
  rw [rs2Field, this]

/-- A word is the format C word of its own fields. -/
theorem formatC_fields (cw : CommandWord) : formatC (opField cw) (rdField cw) (rs1Field cw) (rs2Field cw) = cw := by
  apply BitVec.eq_of_getLsbD_eq
  intro i hi
  have e0 : (BitVec.ofFin (rs2Field cw) : BitVec 4) = cw.extractLsb' 0 4 := rfl
  have e1 : (BitVec.ofFin (rs1Field cw) : BitVec 4) = cw.extractLsb' 4 4 := rfl
  have e2 : (BitVec.ofFin (rdField cw) : BitVec 4) = cw.extractLsb' 8 4 := rfl
  have e3 : opField cw = cw.extractLsb' 12 4 := rfl
  rw [formatC_bit, e0, e1, e2, e3]
  simp only [BitVec.getLsbD_extractLsb']
  have h3 : i - 4 - 4 - 4 < 4 := by omega
  split
  case isTrue h => simp only [h, decide_true, Bool.true_and, Nat.zero_add]
  split
  case isTrue h => simp only [h, decide_true, Bool.true_and, show 4 + (i - 4) = i by omega]
  split
  case isTrue h => simp only [h, decide_true, Bool.true_and, show 8 + (i - 4 - 4) = i by omega]
  case isFalse => simp only [h3, decide_true, Bool.true_and, show 12 + (i - 4 - 4 - 4) = i by omega]

/-- Decoding a format C word is the case analysis of R43 on the fields it was made of. -/
theorem decode_formatC (op : BitVec 4) (rd rs1 rs2 : Reg) (xa xb : Nat) :
    decode ⟨formatC op rd rs1 rs2, xa, xb⟩ = decodeFields op.toNat rd rs1 rs2 xa xb := by
  rw [decode, opField_formatC, rdField_formatC, rs1Field_formatC, rs2Field_formatC]

end Sys2Proof.Laws
end

