-- ==== Sys2Proof/Laws/State.lean ====
section
/-! SUPPORT. One lemma per field per update of State, and the laws of the status word's two writes. -/

namespace Sys2Proof.Laws

open Sys2Proof Sys2Proof.Machine

variable (s : State) (r q : Reg) (d : DigitArray) (x : Nat) (o : Ordering) (rest : List HostEvent)

/-! ### setReg -/

@[simp] theorem setReg_cfg : (s.setReg r d).cfg = s.cfg := rfl
@[simp] theorem setReg_res : (s.setReg r d).res = s.res := rfl
@[simp] theorem setReg_st : (s.setReg r d).st = s.st := rfl
@[simp] theorem setReg_input : (s.setReg r d).input = s.input := rfl

@[simp] theorem setReg_reg_same : (s.setReg r d).reg r = d := by simp [State.setReg, State.reg]

theorem setReg_reg : (s.setReg r d).reg q = if q = r then d else s.reg q := by
  by_cases h : q = r
  · subst h; simp
  · rw [if_neg h]
    have : r.val ≠ q.val := fun e => h (Fin.ext e.symm)
    simp [State.setReg, State.reg, Vector.getElem_set_ne _ _ this]

theorem setReg_reg_other (h : q ≠ r) : (s.setReg r d).reg q = s.reg q := by rw [setReg_reg, if_neg h]

/-! ### setRes -/

@[simp] theorem setRes_cfg : (s.setRes x).cfg = s.cfg := rfl
@[simp] theorem setRes_v : (s.setRes x).v = s.v := rfl
@[simp] theorem setRes_reg : (s.setRes x).reg r = s.reg r := rfl
@[simp] theorem setRes_res : (s.setRes x).res = x % 2 ^ s.cfg.K := rfl
@[simp] theorem setRes_st : (s.setRes x).st = s.st := rfl
@[simp] theorem setRes_input : (s.setRes x).input = s.input := rfl

/-! ### setCompare -/

@[simp] theorem setCompare_cfg : (s.setCompare o).cfg = s.cfg := rfl
@[simp] theorem setCompare_v : (s.setCompare o).v = s.v := rfl
@[simp] theorem setCompare_reg : (s.setCompare o).reg r = s.reg r := rfl
@[simp] theorem setCompare_res : (s.setCompare o).res = s.res := rfl
@[simp] theorem setCompare_st : (s.setCompare o).st = withCompare s.st o := rfl
@[simp] theorem setCompare_input : (s.setCompare o).input = s.input := rfl

/-! ### illegalCommand -/

@[simp] theorem illegalCommand_cfg : s.illegalCommand.cfg = s.cfg := rfl
@[simp] theorem illegalCommand_v : s.illegalCommand.v = s.v := rfl
@[simp] theorem illegalCommand_reg : s.illegalCommand.reg r = s.reg r := rfl
@[simp] theorem illegalCommand_res : s.illegalCommand.res = s.res := rfl
@[simp] theorem illegalCommand_st : s.illegalCommand.st = withIllegal s.st := rfl
@[simp] theorem illegalCommand_input : s.illegalCommand.input = s.input := rfl

/-! ### afterInput -/

@[simp] theorem afterInput_cfg : (s.afterInput rest).cfg = s.cfg := rfl
@[simp] theorem afterInput_v : (s.afterInput rest).v = s.v := rfl
@[simp] theorem afterInput_reg : (s.afterInput rest).reg r = s.reg r := rfl
@[simp] theorem afterInput_res : (s.afterInput rest).res = s.res := rfl
@[simp] theorem afterInput_st : (s.afterInput rest).st = s.st := rfl
@[simp] theorem afterInput_input : (s.afterInput rest).input = rest := rfl

/-! ### reset -/

@[simp] theorem resetOf_cfg (c : Config) : (State.resetOf c rest).cfg = c := rfl
@[simp] theorem resetOf_res (c : Config) : (State.resetOf c rest).res = 0 := rfl
@[simp] theorem resetOf_st (c : Config) : (State.resetOf c rest).st = 0#4 := rfl
@[simp] theorem resetOf_input (c : Config) : (State.resetOf c rest).input = rest := rfl
@[simp] theorem resetOf_reg (c : Config) : (State.resetOf c rest).reg r = zeroArray c := by
  simp [State.resetOf, State.reg]
@[simp] theorem applyReset_cfg : s.applyReset.cfg = s.cfg := rfl
@[simp] theorem applyReset_res : s.applyReset.res = 0 := rfl
@[simp] theorem applyReset_st : s.applyReset.st = 0#4 := rfl
@[simp] theorem applyReset_input : s.applyReset.input = s.input := rfl
@[simp] theorem applyReset_reg : s.applyReset.reg r = zeroArray s.cfg := resetOf_reg r s.input s.cfg

/-! ### rename -/

variable (σ : Equiv.Perm Reg)

@[simp] theorem rename_cfg : (s.rename σ).cfg = s.cfg := rfl
@[simp] theorem rename_res : (s.rename σ).res = s.res := rfl
@[simp] theorem rename_st : (s.rename σ).st = s.st := rfl
@[simp] theorem rename_input : (s.rename σ).input = s.input := rfl
@[simp] theorem rename_reg : (s.rename σ).reg (σ r) = s.reg r := by simp [State.rename, State.reg]

theorem rename_setReg : (s.setReg r d).rename σ = (s.rename σ).setReg (σ r) d := by
  have hv : ((s.setReg r d).rename σ).v = ((s.rename σ).setReg (σ r) d).v := by
    apply Vector.ext
    intro i hi
    change ((s.setReg r d).rename σ).reg ⟨i, hi⟩ = ((s.rename σ).setReg (σ r) d).reg ⟨i, hi⟩
    obtain ⟨q, hq⟩ := σ.surjective ⟨i, hi⟩
    rw [← hq, rename_reg, setReg_reg, setReg_reg, rename_reg]
    simp
  simp only [State.rename, State.setReg, State.mk.injEq, true_and, and_true] at hv ⊢
  exact hv

theorem rename_setRes : (s.setRes x).rename σ = (s.rename σ).setRes x := rfl
theorem rename_setCompare : (s.setCompare o).rename σ = (s.rename σ).setCompare o := rfl

/-! ### The status word -/

theorem withCompare_bits (st : StatusWord) :
    stLT (withCompare st o) = (o == .lt) ∧ stEQ (withCompare st o) = (o == .eq) ∧
    stGT (withCompare st o) = (o == .gt) ∧ stILL (withCompare st o) = stILL st := by
  cases o <;> revert st <;> decide

theorem withIllegal_bits (st : StatusWord) :
    stLT (withIllegal st) = stLT st ∧ stEQ (withIllegal st) = stEQ st ∧
    stGT (withIllegal st) = stGT st ∧ stILL (withIllegal st) = true := by
  revert st; decide

/-- The four bits determine the word. -/
theorem status_ext (a b : StatusWord) (h0 : stLT a = stLT b) (h1 : stEQ a = stEQ b) (h2 : stGT a = stGT b)
    (h3 : stILL a = stILL b) : a = b := by
  revert a b; decide

theorem withCompare_oneHot (st : StatusWord) : CompareOneHot (withCompare st o) :=
  .inr ⟨o, by cases o <;> revert st <;> decide⟩

theorem withIllegal_compareBits (st : StatusWord) : (withIllegal st).extractLsb' 0 3 = st.extractLsb' 0 3 := by
  revert st; decide

end Sys2Proof.Laws
end

