-- ==== Sys2Proof/Laws/Machine.lean ====
section
/-! SUPPORT. What the shared operations, one instruction and one step can do, said once; later proofs cite these and do not
unfold `exec` or `step`. -/

namespace Sys2Proof.Laws

open Sys2Proof Sys2Proof.Machine

variable {s t : State}

/-! ### The shared operations -/

theorem writeArray_next {rd : Reg} {d : DigitArray} : writeArray rd d s = .next t ↔ t = s.setReg rd d := by
  simp [writeArray, eq_comm]

theorem writeScalar_next {x : Nat} : writeScalar x s = .next t ↔ t = s.setRes x := by
  simp [writeScalar, eq_comm]

theorem binary_next {f : Config → DigitArray → DigitArray → DigitArray} {rd rs1 rs2 : Reg} :
    binary f rd rs1 rs2 s = .next t ↔ t = s.setReg rd (f s.cfg (s.reg rs1) (s.reg rs2)) :=
  writeArray_next

/-- POW in the configuration with CAP = 2 (R93). -/
theorem execPow_refused {rd rs1 rs2 : Reg} (h : s.cfg.CAP = 2) :
    execPow rd rs1 rs2 s = .refused .twoNotRepresentable := by
  simp [execPow, h]

/-- POW in every other configuration. -/
theorem execPow_runs {rd rs1 rs2 : Reg} (h : s.cfg.CAP ≠ 2) :
    execPow rd rs1 rs2 s = binary powArrays rd rs1 rs2 s := by
  simp [execPow, h]

/-! ### The invariant under the three writes, the error outcome and reset -/

theorem Inv_setReg (h : s.Inv) {rd : Reg} {d : DigitArray} (hd : ArrayOk s.cfg d) : (s.setReg rd d).Inv := by
  refine ⟨fun r => ?_, h.resFits, h.oneHot⟩
  rw [setReg_reg]
  split
  · exact hd
  · exact h.digits r

theorem Inv_setRes (h : s.Inv) (x : Nat) : (s.setRes x).Inv :=
  ⟨h.digits, Nat.mod_lt _ (Nat.two_pow_pos _), h.oneHot⟩

theorem Inv_setCompare (h : s.Inv) (o : Ordering) : (s.setCompare o).Inv :=
  ⟨h.digits, h.resFits, withCompare_oneHot o s.st⟩

theorem Inv_illegalCommand (h : s.Inv) : s.illegalCommand.Inv := by
  refine ⟨h.digits, h.resFits, ?_⟩
  have := h.oneHot
  rwa [CompareOneHot, ← withIllegal_compareBits] at this

theorem Inv_resetOf (c : Config) (rest : List HostEvent) : (State.resetOf c rest).Inv :=
  ⟨fun r => by rw [resetOf_reg]; exact zeroArray_ok c, Nat.two_pow_pos _, .inl (by rw [resetOf_st]; decide)⟩

theorem Inv_afterInput (h : s.Inv) (rest : List HostEvent) : (s.afterInput rest).Inv := ⟨h.digits, h.resFits, h.oneHot⟩

/-! ### One instruction -/

/-- The ways in which an instruction writes: one value register with a well-formed array, RES, or ST[2:0]. -/
theorem exec_cases (h : s.DigitsOk) {i : Instr} (he : exec i s = .next t) :
    (∃ rd d, ArrayOk s.cfg d ∧ t = s.setReg rd d) ∨ (∃ x, t = s.setRes x) ∨ (∃ o, t = s.setCompare o) := by
  cases i with
  | zero rd => exact .inl ⟨rd, _, zeroArray_ok _, writeArray_next.1 he⟩
  | ldn rd x => exact .inl ⟨rd, _, arr_ok _ _, writeArray_next.1 he⟩
  | mov rd rs1 => exact .inl ⟨rd, _, h rs1, writeArray_next.1 he⟩
  | stn rs1 => exact .inr (.inl ⟨_, writeScalar_next.1 he⟩)
  | getd rs1 p => exact .inr (.inl ⟨_, writeScalar_next.1 he⟩)
  | setd rd p x => exact .inl ⟨rd, _, setdig_ok (h rd) p x, writeArray_next.1 he⟩
  | msd rs1 => exact .inr (.inl ⟨_, writeScalar_next.1 he⟩)
  | add rd rs1 rs2 => exact .inl ⟨rd, _, addArrays_ok (h rs1) (h rs2), binary_next.1 he⟩
  | sub rd rs1 rs2 => exact .inl ⟨rd, _, subArrays_ok (h rs1) (h rs2), binary_next.1 he⟩
  | mul rd rs1 rs2 => exact .inl ⟨rd, _, mulArrays_ok (h rs1), binary_next.1 he⟩
  | div rd rs1 rs2 => exact .inl ⟨rd, _, divArrays_ok (h rs1) (h rs2), binary_next.1 he⟩
  | mod rd rs1 rs2 => exact .inl ⟨rd, _, modArrays_ok (h rs1) (h rs2), binary_next.1 he⟩
  | pow rd rs1 rs2 =>
    change execPow rd rs1 rs2 s = .next t at he
    unfold execPow at he
    split at he
    · cases he
    case isFalse hc => exact .inl ⟨rd, _, powArrays_ok hc (h rs1) (h rs2), binary_next.1 he⟩
  | cmp rs1 rs2 => exact .inr (.inr ⟨_, (Host.Outcome.next.inj he).symm⟩)

/-- The same without an invariant: what an instruction leaves alone whatever the state is. -/
theorem exec_shape {i : Instr} (he : exec i s = .next t) :
    (∃ rd d, t = s.setReg rd d) ∨ (∃ x, t = s.setRes x) ∨ (∃ o, t = s.setCompare o) := by
  cases i with
  | zero rd => exact .inl ⟨rd, _, writeArray_next.1 he⟩
  | ldn rd x => exact .inl ⟨rd, _, writeArray_next.1 he⟩
  | mov rd rs1 => exact .inl ⟨rd, _, writeArray_next.1 he⟩
  | stn rs1 => exact .inr (.inl ⟨_, writeScalar_next.1 he⟩)
  | getd rs1 p => exact .inr (.inl ⟨_, writeScalar_next.1 he⟩)
  | setd rd p x => exact .inl ⟨rd, _, writeArray_next.1 he⟩
  | msd rs1 => exact .inr (.inl ⟨_, writeScalar_next.1 he⟩)
  | add rd rs1 rs2 => exact .inl ⟨rd, _, binary_next.1 he⟩
  | sub rd rs1 rs2 => exact .inl ⟨rd, _, binary_next.1 he⟩
  | mul rd rs1 rs2 => exact .inl ⟨rd, _, binary_next.1 he⟩
  | div rd rs1 rs2 => exact .inl ⟨rd, _, binary_next.1 he⟩
  | mod rd rs1 rs2 => exact .inl ⟨rd, _, binary_next.1 he⟩
  | pow rd rs1 rs2 =>
    change execPow rd rs1 rs2 s = .next t at he
    unfold execPow at he
    split at he
    · cases he
    · exact .inl ⟨rd, _, binary_next.1 he⟩
  | cmp rs1 rs2 => exact .inr (.inr ⟨_, (Host.Outcome.next.inj he).symm⟩)

/-! ### One command, one input, one step -/

/-- What a command that answers does: an illegal word has the error outcome, a legal one runs. -/
theorem runCommand_cases {m : Command} (h : runCommand m s = .next t) :
    ((∃ e, decode m = .error e) ∧ t = s.illegalCommand) ∨
    ∃ i, decode m = .ok i ∧ i.wf s.cfg = true ∧ exec i s = .next t := by
  unfold runCommand at h
  split at h
  case h_1 e he => exact .inl ⟨⟨e, he⟩, (Host.Outcome.next.inj h).symm⟩
  case h_2 i hi =>
    split at h
    case isTrue hw => exact .inr ⟨i, hi, hw, h⟩
    case isFalse => cases h

theorem runCommand_ok {m : Command} {i : Instr} (hd : decode m = .ok i) (hw : i.wf s.cfg = true) :
    runCommand m s = exec i s := by
  simp [runCommand, hd, hw]

theorem runCommand_error {m : Command} {e : DecodeError} (hd : decode m = .error e) :
    runCommand m s = .next s.illegalCommand := by
  simp [runCommand, hd]

theorem runCommand_wide {m : Command} {i : Instr} (hd : decode m = .ok i) (hw : ¬i.wf s.cfg = true) :
    runCommand m s = .refused .scalarTooWide := by
  simp [runCommand, hd, hw]

theorem step_nil (h : s.input = []) : step s = .next s := by
  unfold step
  rw [h]

theorem step_cons {e : HostEvent} {rest : List HostEvent} (h : s.input = e :: rest) :
    step s = runEvent e (s.afterInput rest) := by
  unfold step
  rw [h]

/-- What a step that answers does: nothing is left to do, a reset, an illegal command, or an instruction. -/
theorem step_cases (h : step s = .next t) :
    (s.input = [] ∧ t = s) ∨
    (∃ rest, s.input = .reset :: rest ∧ t = (s.afterInput rest).applyReset) ∨
    (∃ m e rest, s.input = .command m :: rest ∧ decode m = .error e ∧ t = (s.afterInput rest).illegalCommand) ∨
    (∃ m i rest, s.input = .command m :: rest ∧ decode m = .ok i ∧ i.wf s.cfg = true ∧
      exec i (s.afterInput rest) = .next t) := by
  match hi : s.input with
  | [] =>
    rw [step_nil hi] at h
    exact .inl ⟨rfl, (Host.Outcome.next.inj h).symm⟩
  | .reset :: rest =>
    rw [step_cons hi] at h
    exact .inr (.inl ⟨rest, rfl, (Host.Outcome.next.inj h).symm⟩)
  | .command m :: rest =>
    rw [step_cons hi] at h
    rcases runCommand_cases h with ⟨⟨e, he⟩, ht⟩ | ⟨i, hd, hw, he⟩
    · exact .inr (.inr (.inl ⟨m, e, rest, rfl, he, ht⟩))
    · exact .inr (.inr (.inr ⟨m, i, rest, rfl, hd, hw, he⟩))

/-- An outcome with every state in it changed by f. -/
def mapNext (f : State → State) : Host.Outcome State Fault Refusal → Host.Outcome State Fault Refusal
  | .next t => .next (f t)
  | .fault r => .fault r
  | .refused r => .refused r

/-- No instruction reads the host's inputs. -/
theorem exec_afterInput (i : Instr) (s : State) (l : List HostEvent) :
    exec i (s.afterInput l) = mapNext (fun t => t.afterInput l) (exec i s) := by
  cases i
  case pow rd rs1 rs2 =>
    change execPow rd rs1 rs2 (s.afterInput l) = mapNext _ (execPow rd rs1 rs2 s)
    by_cases h : s.cfg.CAP = 2
    · rw [execPow_refused h, execPow_refused (s := s.afterInput l) h]; rfl
    · rw [execPow_runs h, execPow_runs (s := s.afterInput l) h]; rfl
  all_goals rfl

/-- No command reads the host's later inputs. -/
theorem runCommand_afterInput (m : Command) (s : State) (l : List HostEvent) :
    runCommand m (s.afterInput l) = mapNext (fun t => t.afterInput l) (runCommand m s) := by
  match hd : decode m with
  | .error e => rw [runCommand_error hd, runCommand_error hd]; rfl
  | .ok i =>
    by_cases h : i.wf s.cfg = true
    · rw [runCommand_ok hd h, runCommand_ok (s := s.afterInput l) hd h, exec_afterInput]
    · rw [runCommand_wide hd h, runCommand_wide (s := s.afterInput l) hd h]; rfl

/-- Packaged induction: what holds at s and is kept by every step holds of every state that s reaches. -/
theorem Reaches.induct {P : State → Prop} (h0 : P s) (hstep : ∀ u v, P u → step u = .next v → P v) (h : Reaches s t) :
    P t := by
  induction h with
  | refl => exact h0
  | tail _ hs ih => exact hstep _ _ ih hs

end Sys2Proof.Laws
end

