-- ==== Sys2Proof/Laws/Issue.lean ====
section
/-! SUPPORT. The host's issuing of instructions, runs of several instances, the edges of the port, the frames of the three writes,
and the signed values of the wrapper. -/

namespace Sys2Proof.Laws

open Sys2Proof Sys2Proof.Machine

variable {s t : State}

/-! ### Issuing -/

theorem issue_eq {i : Instr} (h : i.wf s.cfg = true) : issue i s = exec i s :=
  runCommand_ok (by cases i <;> rw [encode, decode_formatC] <;> rfl) h

theorem issue_next {i : Instr} (h : i.wf s.cfg = true) (he : exec i s = .next t) : issue i s = .next t :=
  (issue_eq h).trans he

theorem issueAll_cons {i : Instr} {l : List Instr} (h : i.wf s.cfg = true) (he : exec i s = .next t) :
    issueAll (i :: l) s = issueAll l t := by
  rw [issueAll, issue_next h he, andThen]

/-! ### Runs of one instance and of several -/

@[simp] theorem andThen_next {α : Type} (f : State → Host.Outcome α Fault Refusal) : andThen (.next s) f = f s := rfl

theorem andThen_assoc {α : Type} (o : Host.Outcome State Fault Refusal) (f : State → Host.Outcome State Fault Refusal)
    (g : State → Host.Outcome α Fault Refusal) : andThen (andThen o f) g = andThen o (fun u => andThen (f u) g) := by
  cases o <;> rfl

@[simp] theorem andThen_runEvents_nil (o : Host.Outcome State Fault Refusal) : andThen o (runEvents []) = o := by
  cases o <;> rfl

@[simp] theorem eventsOf_nil {n : Nat} (k : Fin n) : eventsOf k [] = [] := rfl

theorem eventsOf_cons {n : Nat} (k j : Fin n) (e : HostEvent) (l : List (Fin n × HostEvent)) :
    eventsOf k ((j, e) :: l) = if j = k then e :: eventsOf k l else eventsOf k l := by
  by_cases h : j = k <;> simp [eventsOf, h]

/-- What one input does to a system: the instance it goes to takes it, every other one is as before. -/
theorem event_get {n : Nat} (k j : Fin n) (e : HostEvent) (sys : Instances n) :
    (sys.event j e)[k] = if j = k then andThen sys[k] (runEvent e) else sys[k] := by
  by_cases h : j = k
  · subst h
    simp [Instances.event]
  · have : (j : Nat) ≠ k := fun hv => h (Fin.ext hv)
    simp [Instances.event, this, h]

/-! ### One edge of the port -/

theorem edges_cons {pins : Pins} {rest : List Pins} {p q : Port} (h : p.edge pins = .next q) :
    Port.edges (pins :: rest) p = Port.edges rest q := by
  rw [Port.edges, h]

theorem edge_accept {p : Port} {m : Command} (h : p.executing = none) : p.edge ⟨false, true, m⟩ = .next (p.accept m) := by
  simp [Port.edge, h]

theorem edge_wait {p : Port} {pins : Pins} {m : Command} {k : Nat} (hr : pins.rst = false)
    (h : p.executing = some (m, k + 1)) : p.edge pins = .next { p with executing := some (m, k), rspValid := false } := by
  simp [Port.edge, hr, h]

theorem edge_answer {p : Port} {pins : Pins} {m : Command} (hr : pins.rst = false) (h : p.executing = some (m, 0))
    (ht : runCommand m p.core = .next t) :
    p.edge pins = .next { p with core := t, executing := none, rspValid := true } := by
  simp [Port.edge, Port.answer, hr, h, ht]

theorem rspRes_idle {p : Port} (h : p.executing = none) : p.rspRes = p.core.res := by simp [Port.rspRes, h]

theorem rspSt_idle {p : Port} (h : p.executing = none) : p.rspSt = p.core.st := by simp [Port.rspSt, h]

/-! ### Frames and the digit invariant -/

theorem onlyReg_setReg (rd : Reg) (d : DigitArray) : OnlyReg rd s (s.setReg rd d) :=
  ⟨rfl, rfl, rfl, rfl, fun q h => setReg_reg_other s rd q d h⟩

theorem onlyRes_setRes (x : Nat) : OnlyRes s (s.setRes x) := ⟨rfl, rfl, rfl, fun _ => rfl⟩

theorem DigitsOk_setReg (h : s.DigitsOk) {rd : Reg} {d : DigitArray} (hd : ArrayOk s.cfg d) : (s.setReg rd d).DigitsOk := by
  intro r
  rw [setReg_reg]
  split
  · exact hd
  · exact h r

/-- A digit of a register fits a scalar word (R5). -/
theorem dig_lt_two_pow_K (h : s.DigitsOk) (r : Reg) (p : Nat) : dig (s.reg r) p < 2 ^ s.cfg.K :=
  (dig_lt ((arrayOk_iff _ _).1 (h r)).2 (B_pos _) p).trans_le (B_le_two_pow_K _)

/-- A digit count of a register fits a scalar word (R5). -/
theorem msd_lt_two_pow_K (h : s.DigitsOk) (r : Reg) : msd (s.reg r) < 2 ^ s.cfg.K :=
  ((msd_le _).trans_eq (h r).1).trans_lt (wf_facts s.cfg).2.2.2.2.2

/-! ### Signed values -/

theorem canon_mag (c : Config) (g : Sign) (m : DigitArray) : (canon c g m).mag = m := by
  unfold canon
  split <;> rfl

theorem toInt_canon {c : Config} {g : Sign} {m : DigitArray} (h : ArrayOk c m) :
    (canon c g m).toInt c = (Signed.mk g m).toInt c := by
  unfold canon
  split
  case isTrue hz =>
    have := (isZero_iff h).1 hz
    cases g <;> simp [Signed.toInt, this]
  case isFalse => rfl

/-- What `canon` makes is canonical (R101). -/
theorem canonical_canon {c : Config} {g : Sign} {m : DigitArray} (h : ArrayOk c m) : (canon c g m).Canonical c := by
  refine ⟨by rwa [canon_mag], ?_⟩
  unfold canon
  split
  case isTrue hz => simp
  case isFalse hz => simp

/-- A canonical value is negative exactly when its flag says so. -/
theorem Signed.Canonical.neg_iff {c : Config} {x : Signed} (h : x.Canonical c) : x.sign = .neg ↔ x.toInt c < 0 := by
  obtain ⟨hok, hc⟩ := h
  unfold canon at hc
  split at hc
  case isTrue hz =>
    have := (isZero_iff hok).1 hz
    rw [← hc]
    simp [Signed.toInt]
  case isFalse hz =>
    have hp : 0 < val c.B x.mag := Nat.pos_of_ne_zero fun he => hz ((isZero_iff hok).2 he)
    cases hs : x.sign <;> simp [Signed.toInt, hs, hp]

end Sys2Proof.Laws
end

