-- ==== Sys2Proof/Laws/PerInstr.lean ====
section
/-! SUPPORT. One statement per instruction as syntax: its encoding selects its own row of R42. -/

namespace Sys2Proof.Laws

open Sys2Proof

/-- The mask of the three-register rows keeps the opcode alone. -/
theorem mask_opcode (cw : CommandWord) : cw &&& 0xF000#16 = (opField cw ++ 0#12 : BitVec 16) := by
  apply BitVec.eq_of_getLsbD_eq
  intro i hi
  rw [BitVec.getLsbD_and, BitVec.getLsbD_append, opField, BitVec.getLsbD_extractLsb']
  by_cases h : i < 12
  · have : (0xF000#16).getLsbD i = false := by
      revert h
      exact (by decide : ∀ k : Fin 16, k.val < 12 → (0xF000#16).getLsbD k = false) ⟨i, hi⟩
    rw [this, if_pos h]
    simp
  · have : (0xF000#16).getLsbD i = true := by
      revert h
      exact (by decide : ∀ k : Fin 16, ¬k.val < 12 → (0xF000#16).getLsbD k = true) ⟨i, hi⟩
    rw [this, if_neg h, Bool.and_true]
    simp only [show i - 12 < 4 by omega, decide_true, Bool.true_and, show 12 + (i - 12) = i by omega]

theorem formatC_mask (op : BitVec 4) (rd rs1 rs2 : Reg) : formatC op rd rs1 rs2 &&& 0xF000#16 = (op ++ 0#12 : BitVec 16) := by
  rw [mask_opcode, opField_formatC]

/-- The word of `encode i` selects a row of R42 that carries the mnemonic of i. -/
def EncodeRow.Statement (i : Instr) : Prop :=
  ∃ row ∈ opcodeRows, row.mnemonic = i.mnemonic ∧ row.selects (encode i).cw = true

theorem EncodeRow.zero (rd : Reg) : EncodeRow.Statement (.zero rd) :=
  ⟨⟨"ZERO", 0xF0FF, 0x1000⟩, by simp [opcodeRows], rfl, by revert rd; decide⟩

theorem EncodeRow.ldn (rd : Reg) (x : Nat) : EncodeRow.Statement (.ldn rd x) :=
  ⟨⟨"LDN", 0xF0FF, 0x2000⟩, by simp [opcodeRows], rfl,
    (by decide : ∀ rd : Reg, (OpcodeRow.mk "LDN" 0xF0FF 0x2000).selects (formatC 0x2 rd 0 0) = true) rd⟩

theorem EncodeRow.mov (rd rs1 : Reg) : EncodeRow.Statement (.mov rd rs1) :=
  ⟨⟨"MOV", 0xF00F, 0x3000⟩, by simp [opcodeRows], rfl, by revert rd rs1; decide⟩

theorem EncodeRow.stn (rs1 : Reg) : EncodeRow.Statement (.stn rs1) :=
  ⟨⟨"STN", 0xFF0F, 0x4000⟩, by simp [opcodeRows], rfl, by revert rs1; decide⟩

theorem EncodeRow.getd (rs1 : Reg) (p : Nat) : EncodeRow.Statement (.getd rs1 p) :=
  ⟨⟨"GETD", 0xFF0F, 0x5000⟩, by simp [opcodeRows], rfl,
    (by decide : ∀ r : Reg, (OpcodeRow.mk "GETD" 0xFF0F 0x5000).selects (formatC 0x5 0 r 0) = true) rs1⟩

theorem EncodeRow.setd (rd : Reg) (p x : Nat) : EncodeRow.Statement (.setd rd p x) :=
  ⟨⟨"SETD", 0xF0FF, 0x6000⟩, by simp [opcodeRows], rfl,
    (by decide : ∀ r : Reg, (OpcodeRow.mk "SETD" 0xF0FF 0x6000).selects (formatC 0x6 r 0 0) = true) rd⟩

theorem EncodeRow.msd (rs1 : Reg) : EncodeRow.Statement (.msd rs1) :=
  ⟨⟨"MSD", 0xFF0F, 0x7000⟩, by simp [opcodeRows], rfl, by revert rs1; decide⟩

theorem EncodeRow.add (rd rs1 rs2 : Reg) : EncodeRow.Statement (.add rd rs1 rs2) :=
  ⟨⟨"ADD", 0xF000, 0x8000⟩, by simp [opcodeRows], rfl, beq_iff_eq.2 (formatC_mask 0x8 rd rs1 rs2)⟩

theorem EncodeRow.sub (rd rs1 rs2 : Reg) : EncodeRow.Statement (.sub rd rs1 rs2) :=
  ⟨⟨"SUB", 0xF000, 0x9000⟩, by simp [opcodeRows], rfl, beq_iff_eq.2 (formatC_mask 0x9 rd rs1 rs2)⟩

theorem EncodeRow.mul (rd rs1 rs2 : Reg) : EncodeRow.Statement (.mul rd rs1 rs2) :=
  ⟨⟨"MUL", 0xF000, 0xA000⟩, by simp [opcodeRows], rfl, beq_iff_eq.2 (formatC_mask 0xA rd rs1 rs2)⟩

theorem EncodeRow.div (rd rs1 rs2 : Reg) : EncodeRow.Statement (.div rd rs1 rs2) :=
  ⟨⟨"DIV", 0xF000, 0xB000⟩, by simp [opcodeRows], rfl, beq_iff_eq.2 (formatC_mask 0xB rd rs1 rs2)⟩

theorem EncodeRow.mod (rd rs1 rs2 : Reg) : EncodeRow.Statement (.mod rd rs1 rs2) :=
  ⟨⟨"MOD", 0xF000, 0xC000⟩, by simp [opcodeRows], rfl, beq_iff_eq.2 (formatC_mask 0xC rd rs1 rs2)⟩

theorem EncodeRow.pow (rd rs1 rs2 : Reg) : EncodeRow.Statement (.pow rd rs1 rs2) :=
  ⟨⟨"POW", 0xF000, 0xD000⟩, by simp [opcodeRows], rfl, beq_iff_eq.2 (formatC_mask 0xD rd rs1 rs2)⟩

theorem EncodeRow.cmp (rs1 rs2 : Reg) : EncodeRow.Statement (.cmp rs1 rs2) :=
  ⟨⟨"CMP", 0xFF00, 0xE000⟩, by simp [opcodeRows], rfl, by revert rs1 rs2; decide⟩

end Sys2Proof.Laws
end

