-- ==== Sys2Proof/Tests/Slice0.lean ====
section
/-! SUPPORT. The model's own tests. Expected results are the worked values of spec/95_test_vectors.md (the section stands in each
docstring) and the encodings of spec/30_encoding.md; the witnesses at the end show states and operands that meet the hypotheses of
the obligations. -/

namespace Sys2Proof.Tests

open Sys2Proof Sys2Proof.Machine Sys2Proof.Laws

-- One test after another: checked side by side, they would each hold a thread while they wait for the declarations before them.
set_option Elab.async false

/-! ### Helpers -/

/-- The reset state of an instance with some registers filled. -/
def stateOf (c : Config) (l : List (Reg × DigitArray)) : State :=
  l.foldl (fun s e => s.setReg e.1 e.2) (State.resetOf c [])

/-- A register after one instruction. -/
def regAfter (i : Instr) (s : State) (r : Reg) : Option DigitArray :=
  match exec i s with
  | .next t => some (t.reg r)
  | .fault _ | .refused _ => none

/-- RES and ST after one instruction. -/
def responseAfter (i : Instr) (s : State) : Option (Nat × StatusWord) :=
  match exec i s with
  | .next t => some (response t)
  | .fault _ | .refused _ => none

/-- What a command word leaves of a state: the decoded instruction and whether the word is legal. -/
def decoded (cw : CommandWord) (xa xb : Nat) : Option Instr := (decode ⟨cw, xa, xb⟩).toOption

/-- One step with a word presented: RES, ST and one register. -/
def stepWith (cw : CommandWord) (xa xb : Nat) (s : State) (r : Reg) : Option (Nat × StatusWord × DigitArray) :=
  match step (present ⟨cw, xa, xb⟩ s) with
  | .next t => some (t.res, t.st, t.reg r)
  | .fault _ | .refused _ => none

/-- An idle port. -/
def idlePort : Port := Port.resetOf 0 Config.cfgA

/-- So many edges without reset, a command presented on each. -/
def idleEdges (k : Nat) : List Pins := List.replicate k ⟨false, true, ⟨0, 0, 0⟩⟩

/-- An instance of CFG-C with one register filled, and one of CFG-A. -/
def twoInstances : Instances 2 := #v[.next (stateOf Config.cfgC [(1, [0, 0, 0, 5])]), .next (State.resetOf Config.cfgA [])]

/-- The state that was answered, if any. -/
def answered (o : Host.Outcome State Fault Refusal) : Option State :=
  match o with
  | .next s => some s
  | .fault _ | .refused _ => none

/-- Inputs to two instances: a reset and a legal command to the first; a scalar too wide for the port (log 4) and then a reset
to the second. -/
def mixedInputs : List (Fin 2 × HostEvent) :=
  [(1, .command ⟨0x2100, 2 ^ 64, 0⟩), (0, .reset), (1, .reset), (0, .command ⟨0x2100, 7, 0⟩)]

/-- CFG-A with an 8-bit scalar word (95 section 2.2). -/
def cfgA8 : Config := { W := 8, N := 2, M := 255, K := 8, bounds := by decide }

/-- The one configuration with CAP = 2 (R93). -/
def cfgBit : Config := { W := 1, N := 1, M := 1, K := 1, bounds := by decide }

/-! ### Well-formedness: each bound refused once (R4, R5, R40) -/

theorem test_zero_digit_width_refused : Params.wf ⟨0, 2, 1, 64⟩ = false := by decide

theorem test_zero_digits_refused : Params.wf ⟨8, 0, 255, 64⟩ = false := by decide

theorem test_zero_largest_digit_refused : Params.wf ⟨8, 2, 0, 64⟩ = false := by decide

theorem test_digit_wider_than_storage_refused : Params.wf ⟨8, 2, 256, 64⟩ = false := by decide

theorem test_scalar_narrower_than_digit_refused : Params.wf ⟨8, 2, 255, 7⟩ = false := by decide

theorem test_digit_count_wider_than_scalar_refused : Params.wf ⟨1, 2, 1, 1⟩ = false := by decide

theorem test_named_configurations_accepted : [Config.cfgA, Config.cfgB, Config.cfgC, Config.cfgD, cfgA8, cfgBit].map (fun c => (c.B, c.CAP)) =
    [(256, 65536), (2, 256), (10, 10000), (7, 343), (256, 65536), (2, 2)] := by decide

theorem test_wide_ldn_refused : Instr.wf Config.cfgA (.ldn 0 (2 ^ 64)) = false := by decide

theorem test_widest_ldn_accepted : Instr.wf Config.cfgA (.ldn 0 (2 ^ 64 - 1)) = true := by decide

theorem test_wide_getd_refused : Instr.wf Config.cfgA (.getd 0 (2 ^ 64)) = false := by decide

theorem test_wide_setd_power_refused : Instr.wf Config.cfgA (.setd 0 (2 ^ 64) 0) = false := by decide

theorem test_wide_setd_digit_refused : Instr.wf Config.cfgA (.setd 0 0 (2 ^ 64)) = false := by decide

theorem test_wide_command_refused : Command.wf Config.cfgA ⟨0x8312, 2 ^ 64, 0⟩ = false := by decide

/-! ### Decoding: words written out from the encodings (R38, R41, R48; 95 section 6.1) -/

theorem test_decode_zero : decoded 0x1F00 0 0 = some (.zero 15) ∧ encode (.zero 15) = ⟨0x1F00, 0, 0⟩ := by decide

theorem test_decode_ldn : decoded 0x2100 1000 0 = some (.ldn 1 1000) ∧ encode (.ldn 1 1000) = ⟨0x2100, 1000, 0⟩ := by decide

theorem test_decode_mov : decoded 0x3410 0 0 = some (.mov 4 1) ∧ encode (.mov 4 1) = ⟨0x3410, 0, 0⟩ := by decide

theorem test_decode_stn : decoded 0x4030 0 0 = some (.stn 3) ∧ encode (.stn 3) = ⟨0x4030, 0, 0⟩ := by decide

theorem test_decode_getd : decoded 0x50A0 0 0 = some (.getd 10 0) ∧ encode (.getd 10 0) = ⟨0x50A0, 0, 0⟩ := by decide

theorem test_decode_setd : decoded 0x6100 3 12 = some (.setd 1 3 12) ∧ encode (.setd 1 3 12) = ⟨0x6100, 3, 12⟩ := by decide

theorem test_decode_msd : decoded 0x7010 0 0 = some (.msd 1) ∧ encode (.msd 1) = ⟨0x7010, 0, 0⟩ := by decide

theorem test_decode_add : decoded 0x8312 0 0 = some (.add 3 1 2) ∧ encode (.add 3 1 2) = ⟨0x8312, 0, 0⟩ := by decide

theorem test_decode_sub : decoded 0x9312 0 0 = some (.sub 3 1 2) ∧ encode (.sub 3 1 2) = ⟨0x9312, 0, 0⟩ := by decide

theorem test_decode_mul : decoded 0xA532 0 0 = some (.mul 5 3 2) ∧ encode (.mul 5 3 2) = ⟨0xA532, 0, 0⟩ := by decide

theorem test_decode_div : decoded 0xB312 0 0 = some (.div 3 1 2) ∧ encode (.div 3 1 2) = ⟨0xB312, 0, 0⟩ := by decide

theorem test_decode_mod : decoded 0xC412 0 0 = some (.mod 4 1 2) ∧ encode (.mod 4 1 2) = ⟨0xC412, 0, 0⟩ := by decide

theorem test_decode_pow : decoded 0xD423 0 0 = some (.pow 4 2 3) ∧ encode (.pow 4 2 3) = ⟨0xD423, 0, 0⟩ := by decide

theorem test_decode_cmp : decoded 0xE061 0 0 = some (.cmp 6 1) ∧ encode (.cmp 6 1) = ⟨0xE061, 0, 0⟩ := by decide

/-- 95 section 6.2. -/
theorem test_illegal_words_do_not_decode :
    ([0x0000, 0x0FFF, 0xF000, 0xFFFF, 0x1001, 0x1010, 0x1101, 0x2110, 0x3121, 0x4130, 0x4031, 0x5100, 0x6101, 0x7F10, 0xE112]
      : List CommandWord).map legalWord = List.replicate 15 false := by decide

/-- An ignored scalar is dropped (R40). -/
theorem test_ignored_scalars : decoded 0x8312 5 6 = some (.add 3 1 2) ∧ decoded 0x2100 7 9 = some (.ldn 1 7) := by decide

theorem test_decode_table_word : decodeTableWord 16 0xB312 = some (.div 3 1 2) ∧ decodeTableWord 16 0xE112 = none := by decide

/-! ### One instruction on one small state -/

/-- 95 section 2.6. -/
theorem test_zero : regAfter (.zero 2) (stateOf Config.cfgC [(2, [1, 2, 3, 4])]) 2 = some [0, 0, 0, 0] := by decide +kernel

/-- 95 section 2.1. -/
theorem test_ldn_wraps : regAfter (.ldn 1 65541) (stateOf Config.cfgA []) 1 = some [0, 5] := by decide +kernel

/-- 95 section 2.1. -/
theorem test_ldn_odd_base : regAfter (.ldn 1 1000) (stateOf Config.cfgD []) 1 = some [6, 2, 6] := by decide +kernel

/-- 95 section 2.6. -/
theorem test_mov : regAfter (.mov 4 1) (stateOf Config.cfgA [(1, [3, 232])]) 4 = some [3, 232] := by decide +kernel

/-- 95 section 2.2. -/
theorem test_stn : responseAfter (.stn 1) (stateOf Config.cfgD [(1, [6, 2, 6])]) = some (314, 0b0000#4) := by decide +kernel

/-- 95 section 2.2. -/
theorem test_stn_wraps : responseAfter (.stn 1) (stateOf cfgA8 [(1, [3, 232])]) = some (232, 0b0000#4) := by decide +kernel

/-- 95 section 2.3. -/
theorem test_getd_top_digit : responseAfter (.getd 1 3) (stateOf Config.cfgC [(1, [2, 0, 0, 7])]) = some (2, 0b0000#4) := by decide +kernel

/-- 95 section 2.3. -/
theorem test_getd_past_width : responseAfter (.getd 1 8) (stateOf Config.cfgB [(1, [1, 0, 1, 0, 1, 0, 1, 0])]) = some (0, 0b0000#4) := by decide +kernel

/-- 95 section 2.4. -/
theorem test_setd_reduces_digit : regAfter (.setd 1 3 12) (stateOf Config.cfgC [(1, [0, 0, 0, 0])]) 1 = some [2, 0, 0, 0] := by decide +kernel

/-- 95 section 2.4. -/
theorem test_setd_past_width : regAfter (.setd 1 4 5) (stateOf Config.cfgC [(1, [2, 0, 0, 7])]) 1 = some [2, 0, 0, 7] := by decide +kernel

/-- 95 section 2.5. -/
theorem test_msd : responseAfter (.msd 1) (stateOf Config.cfgB [(1, [0, 0, 0, 1, 0, 0, 0, 0])]) = some (5, 0b0000#4) := by decide +kernel

/-- 95 section 2.5. -/
theorem test_msd_zero : responseAfter (.msd 1) (stateOf Config.cfgA [(1, [0, 0])]) = some (0, 0b0000#4) := by decide +kernel

/-- 95 section 3.1. -/
theorem test_add_wraps : regAfter (.add 3 1 2) (stateOf Config.cfgC [(1, [1, 2, 3, 4]), (2, [8, 7, 6, 6])]) 3 = some [0, 0, 0, 0] := by decide +kernel

/-- 95 section 7 P5. -/
theorem test_add_source_is_destination : regAfter (.add 1 1 1) (stateOf Config.cfgD [(1, [0, 2, 4])]) 1 = some [0, 5, 1] := by decide +kernel

/-- 95 section 3.3. -/
theorem test_sub_wraps : regAfter (.sub 3 1 2) (stateOf Config.cfgD [(1, [2, 0, 2]), (2, [6, 0, 6])]) 3 = some [2, 6, 3] := by decide +kernel

/-- 95 section 3.1. -/
theorem test_sub_operand_order : regAfter (.sub 2 1 2) (stateOf Config.cfgA [(1, [0, 7]), (2, [3, 232])]) 2 = some [252, 31] := by decide +kernel

/-- 95 section 3.5. -/
theorem test_mul_truncates : regAfter (.mul 3 1 2) (stateOf Config.cfgC [(1, [0, 1, 2, 3]), (2, [0, 4, 5, 6])]) 3 = some [6, 0, 8, 8] := by decide +kernel

/-- 95 section 3.4. -/
theorem test_mul_largest : regAfter (.mul 1 1 1) (stateOf Config.cfgA [(1, [255, 255])]) 1 = some [0, 1] := by decide +kernel

/-- 95 section 4.2.7. -/
theorem test_div_both_checks_correct : regAfter (.div 3 1 2) (stateOf Config.cfgC [(1, [4, 1, 0, 0]), (2, [0, 5, 8, 8])]) 3 = some [0, 0, 0, 6] := by decide +kernel

/-- 95 section 4.1. -/
theorem test_div_by_zero : regAfter (.div 3 1 0) (stateOf Config.cfgA [(1, [3, 232]), (3, [9, 9])]) 3 = some [0, 0] := by decide +kernel

/-- 95 section 4.2.12. -/
theorem test_mod_estimate_above_base : regAfter (.mod 3 1 2) (stateOf Config.cfgC [(1, [0, 5, 8, 9]), (2, [0, 0, 5, 9])]) 3 = some [0, 0, 5, 8] := by decide +kernel

/-- 95 section 1.4. -/
theorem test_mod_by_zero : regAfter (.mod 4 1 0) (stateOf Config.cfgA [(1, [3, 232])]) 4 = some [0, 0] := by decide +kernel

/-- 95 section 5.1. -/
theorem test_pow_largest_exponent : regAfter (.pow 3 1 2) (stateOf Config.cfgC [(1, [0, 0, 0, 7]), (2, [9, 9, 9, 9])]) 3 = some [7, 1, 4, 3] := by decide +kernel

/-- 95 section 5.1. -/
theorem test_pow_zero_to_zero : regAfter (.pow 3 1 2) (stateOf Config.cfgC []) 3 = some [0, 0, 0, 1] := by decide +kernel

/-- 95 section 5.3. -/
theorem test_cmp_less : responseAfter (.cmp 1 2) (stateOf Config.cfgC [(1, [1, 2, 3, 4]), (2, [1, 2, 4, 3])]) = some (0, 0b0001#4) := by decide +kernel

/-- 95 section 5.3. -/
theorem test_cmp_greater_by_leading_digit : responseAfter (.cmp 1 2) (stateOf Config.cfgA [(1, [1, 0]), (2, [0, 255])]) = some (0, 0b0100#4) := by decide +kernel

/-- R93. -/
theorem test_pow_one_bit_refused : exec (.pow 0 0 0) (stateOf cfgBit []) = .refused .twoNotRepresentable :=
  execPow_refused (by decide)

/-! ### The divider's intermediate values (95 section 4.2) -/

/-- 4.2.7: the working values for 4100 / 588 and the window of iteration 0 after iteration 1. -/
theorem test_divider_trace :
    scaleFactor 10 5 = 1 ∧ scale 10 1 [0, 0, 1, 4] = [0, 0, 1, 4, 0] ∧ divWindow 3 [0, 0, 1, 4, 0] 0 = [0, 0, 1, 4] ∧
    firstCheck 10 3 5 8 0 5 8 1 = 7 ∧ secondCheck 10 [8, 8, 5] [0, 0, 1, 4] 7 = 6 := by decide +kernel

/-- 3.5: the rows of 123 * 456. -/
theorem test_multiplier_rows :
    mulRows 10 [0, 1, 2, 3] [0, 4, 5, 6] 1 = [0, 7, 3, 8] ∧ mulRows 10 [0, 1, 2, 3] [0, 4, 5, 6] 2 = [6, 8, 8, 8] := by
  decide +kernel

/-! ### Steps (R10, R45, R127, R140, R144) -/

/-- 95 section 6.3: an illegal word on a state with GT set keeps GT and sets ILL. -/
theorem test_step_illegal_word :
    stepWith 0x0000 5 5 { stateOf Config.cfgC [(1, [0, 0, 0, 5])] with st := 0b0100#4 } 1 = some (0, 0b1100#4, [0, 0, 0, 5]) := by
  decide +kernel

/-- 95 section 7, P3 step 15: CMP keeps ILL. -/
theorem test_step_cmp_keeps_ill :
    stepWith 0xE054 0 0 { stateOf Config.cfgC [(5, [9, 3, 6, 6]), (4, [9, 6, 8, 3])] with res := 9683, st := 0b1000#4 } 5 =
      some (9683, 0b1001#4, [9, 3, 6, 6]) := by decide +kernel

/-- 95 section 7, P1 step 3, from the table word. -/
theorem test_step_fetch_word :
    (match step ((stateOf Config.cfgA [(1, [3, 232]), (2, [0, 7])]).withFetchWord 16 0xB312) with
      | .next t => some (t.reg 3, t.input)
      | .fault _ | .refused _ => none) = some ([0, 142], []) := by decide +kernel

theorem test_step_reset :
    (match step { stateOf Config.cfgA [(1, [3, 232])] with res := 5, st := 0b1010#4, input := [.reset] } with
      | .next t => some (t.reg 1, t.res, t.st)
      | .fault _ | .refused _ => none) = some ([0, 0], 0, 0b0000#4) := by decide +kernel

theorem test_step_wide_scalar_refused :
    step (present ⟨0x2100, 2 ^ 64, 0⟩ State.reset) = .refused .scalarTooWide := by
  rw [step_cons rfl, runEvent]
  exact runCommand_wide (i := .ldn 1 (2 ^ 64)) (by decide) (by decide)

theorem test_step_idle : step State.reset = .next State.reset := rfl

/-! ### The port (R24, R140) -/

/-- A command is accepted only with valid and ready and without reset. -/
theorem test_port_accepts_when_ready :
    (Port.resetOf 0 Config.cfgA).cmdReady false = true ∧ (Port.resetOf 0 Config.cfgA).cmdReady true = false ∧
    ((Port.resetOf 0 Config.cfgA).accept ⟨0x2100, 7, 0⟩).cmdReady false = false := by decide +kernel

/-- The response of the command in flight. -/
theorem test_port_answers :
    (match ({ Port.resetOf 0 Config.cfgA with executing := some (⟨0x2100, 1000, 0⟩, 0) } : Port).edge ⟨false, false, ⟨0, 0, 0⟩⟩ with
      | .next q => some (q.core.reg 1, q.rspValid, q.executing.isNone)
      | .fault _ | .refused _ => none) = some ([3, 232], true, true) := by decide +kernel

/-- R36: the inputs of one instance, a reset and a refused command among them, leave the other where its own inputs lead it. -/
theorem test_instances_do_not_interfere :
    answered (Instances.run mixedInputs twoInstances)[(0 : Fin 2)] = some ((State.resetOf Config.cfgC []).setReg 1 [0, 0, 0, 7]) ∧
    answered (Instances.run mixedInputs twoInstances)[(1 : Fin 2)] = none := by decide +kernel

/-! ### The surrounding software (95 section 8) -/

/-- 8.1. -/
theorem test_to_text :
    toText Config.cfgA .decimal [3, 232] = .ok ['1', '0', '0', '0'] ∧ toText Config.cfgA .hexadecimal [3, 232] = .ok ['3', 'e', '8'] ∧
    toText Config.cfgA .octal [0, 0] = .ok [] := by decide +kernel

/-- 8.1. -/
theorem test_from_text :
    fromText Config.cfgA .decimal ['7', '0', '0', '0', '0'] = .ok (some [17, 112]) ∧
    fromText Config.cfgA .hexadecimal ['3', 'E', '8'] = .ok (some [3, 232]) ∧
    fromText Config.cfgA .hexadecimal ['1', '0', 'g'] = .ok none ∧ fromText Config.cfgA .decimal ['-', '1'] = .ok none := by
  decide +kernel

/-- R110: the sign is read before the magnitude, and written for a negative value. -/
theorem test_signed_text :
    signedFromText Config.cfgC .decimal ['-', '7'] = .ok (some ⟨.neg, [0, 0, 0, 7]⟩) ∧
    signedFromText Config.cfgC .decimal ['-', '0'] = .ok (some ⟨.pos, [0, 0, 0, 0]⟩) ∧
    signedToText Config.cfgC .decimal true ⟨.pos, [0, 0, 0, 7]⟩ = .ok ['+', '7'] := by decide +kernel

/-- R120: one token is taken from the stream. -/
theorem test_stream_read :
    streamRead Config.cfgC .hex [' ', '1', '0', ' ', '9'] = .ok (some [0, 0, 1, 6], [' ', '9']) := by decide +kernel

/-- A signed value of CFG-C. -/
def sv (g : Sign) (n : Nat) : Signed := ⟨g, arr Config.cfgC n⟩

/-- 8.2. -/
theorem test_signed_add_sub :
    sadd Config.cfgC (sv .pos 7) (sv .neg 7) = sv .pos 0 ∧ sadd Config.cfgC (sv .pos 3) (sv .neg 7) = sv .neg 4 ∧
    sadd Config.cfgC (sv .neg 9999) (sv .neg 1) = sv .pos 0 ∧ ssub Config.cfgC (sv .neg 3) (sv .neg 7) = sv .pos 4 := by
  decide +kernel

/-- 8.2. -/
theorem test_signed_mul_div_mod :
    smul Config.cfgC (sv .neg 3) (sv .pos 4) = sv .neg 12 ∧ sdiv Config.cfgC (sv .neg 7) (sv .pos 2) = sv .neg 3 ∧
    sdiv Config.cfgC (sv .neg 1) (sv .pos 2) = sv .pos 0 ∧ smod Config.cfgC (sv .neg 7) (sv .pos 2) = sv .neg 1 ∧
    smod Config.cfgC (sv .pos 7) (sv .neg 2) = sv .pos 1 ∧ smod Config.cfgC (sv .neg 7) (sv .pos 0) = sv .pos 0 := by
  decide +kernel

/-- 8.2. -/
theorem test_signed_cmp_and_signs :
    scmp (sv .neg 5) (sv .neg 3) = .lt ∧ scmp (sv .neg 1) (sv .pos 0) = .lt ∧ uplus (sv .neg 5) = sv .pos 5 ∧
    sneg Config.cfgC (sv .pos 0) = sv .pos 0 := by decide +kernel

/-- R109 at both signs, away from the most negative value. -/
theorem test_native_conversion :
    fromSigned Config.cfgC (-7) = sv .neg 7 ∧ (toSignedWord Config.cfgC (sv .neg 7)).toNat = 2 ^ 64 - 7 := by
  constructor
  · have h : (if (-7 : Int) = mostNegative Config.cfgC then Config.mostNegativeMagnitude Config.cfgC else (-7 : Int).natAbs) = 7 :=
      if_neg (by decide)
    rw [fromSigned, h]
    decide +kernel
  · decide +kernel

/-- R47, R49: a line with a comment, and the two pseudo-commands. -/
theorem test_assembler :
    assembleLine ['D', 'I', 'V', ' ', 'V', '3', ',', ' ', 'V', '1', ',', 'V', '2', ' ', ';', 'x'] = .command (.div 3 1 2) ∧
    assembleLine ['L', 'D', 'N', ' ', 'V', '1', ',', '#', '0', 'x', '3', 'e', '8'] = .command (.ldn 1 1000) ∧
    assembleLine ['N', 'O', 'P'] = .command (.mov 0 0) ∧ assembleLine ['C', 'L', 'R', ' ', 'V', '9'] = .command (.zero 9) ∧
    assembleLine ['M', 'S', 'D', ' ', 'V', '1', '6'] = .rejected := by decide +kernel

/-- R61: 42 in CFG-C widened to six digits. -/
theorem test_widen : widen 6 [0, 0, 4, 2] = [0, 0, 0, 0, 4, 2] := by decide

/-- R13: the most significant digit takes the most significant W bits. -/
theorem test_pack : pack 8 [3, 232] = 0x03E8#16 := by decide +kernel

/-! ### Witnesses: a state and operands that meet every hypothesis of an obligation, clause by clause -/

/-- Two registers of CFG-A filled, V0 zero. -/
def wA : State := stateOf Config.cfgA [(1, [3, 232]), (2, [0, 7])]

/-- The same with one command presented. -/
def wIn (cw : CommandWord) (xa : Nat) : State := present ⟨cw, xa, 0⟩ wA

/-- CFG-C widened by two digits. -/
def cfgC6 : Config := { W := 4, N := 6, M := 9, K := 64, bounds := by decide }

theorem wA_digitsOk : wA.DigitsOk := by decide +kernel

theorem wA_inv : wA.Inv := ⟨wA_digitsOk, by decide +kernel, by decide +kernel⟩

theorem wIn_inv (cw : CommandWord) (xa : Nat) : (wIn cw xa).Inv := ⟨wA_digitsOk, wA_inv.resFits, wA_inv.oneHot⟩

theorem witness_EncodeOfDecode : decode ⟨0xD423, 5, 6⟩ = .ok (.pow 4 2 3) := by decide +kernel

theorem witness_DecodeAgreesWithOpcodeRows :
    decode ⟨0xE061, 5, 6⟩ = .ok (.cmp 6 1) ∧ decode ⟨0xE112, 5, 6⟩ = .error .nonzeroUnusedField ∧
    decode ⟨0xF000, 5, 6⟩ = .error .reservedOpcode := by decide +kernel

theorem witness_IgnoredScalarsDoNotMatter :
    opField 0x2100 ≠ 0x6#4 ∧ opField 0x8312 ≠ 0x2#4 ∧ opField 0x8312 ≠ 0x5#4 ∧ opField 0x8312 ≠ 0x6#4 := by decide +kernel

theorem witness_StepRunsDecodedInstruction :
    (wIn 0x2300 (2 ^ 64 - 1)).input = [.command ⟨0x2300, 2 ^ 64 - 1, 0⟩] ∧
    decode ⟨0x2300, 2 ^ 64 - 1, 0⟩ = .ok (.ldn 3 (2 ^ 64 - 1)) ∧
    Instr.wf (wIn 0x2300 (2 ^ 64 - 1)).cfg (.ldn 3 (2 ^ 64 - 1)) = true ∧ wA.input = [] :=
  ⟨rfl, by decide +kernel, by decide +kernel, rfl⟩

theorem witness_IllegalWordSetsIllOnly :
    (wIn 0x4130 9).input = [.command ⟨0x4130, 9, 0⟩] ∧ decode ⟨0x4130, 9, 0⟩ = .error .nonzeroUnusedField :=
  ⟨rfl, by decide +kernel⟩

/-- ILL kept by a legal word, and set by an illegal one. -/
theorem witness_IllIsStickyAndSetByIllegalWordsOnly :
    (∃ s t, step s = .next t ∧ stILL s.st = true ∧ s.input.head? ≠ some .reset) ∧
    (∃ s t, step s = .next t ∧ stILL s.st = false ∧ stILL t.st = true) :=
  ⟨⟨{ wIn 0x3410 0 with st := 0b1000#4 }, _, rfl, by decide, by simp [wIn, present]⟩,
    ⟨wIn 0xFFFF 0, _, rfl, by decide +kernel, by decide +kernel⟩⟩

theorem witness_ResetEventClearsState :
    ({ wA with st := 0b1010#4, res := 7, input := [.reset, .reset] } : State).input = .reset :: [.reset] := rfl

/-- POW at CAP = 3 completes, another command completes at CAP = 2, POW at CAP = 2 is the refused case. -/
theorem witness_EveryInstructionCompletes :
    ¬((∃ rd rs1 rs2, Instr.div 3 1 2 = .pow rd rs1 rs2) ∧ (stateOf cfgBit []).cfg.CAP = 2) ∧
    (∃ rd rs1 rs2, Instr.pow 3 1 2 = .pow rd rs1 rs2) ∧ (stateOf cfgBit []).cfg.CAP = 2 ∧ wA.cfg.CAP ≠ 2 := by
  refine ⟨?_, ⟨3, 1, 2, rfl⟩, by decide, by decide⟩
  rintro ⟨⟨_, _, _, h⟩, -⟩
  cases h

theorem witness_StepRefusesOnlyNamedCases :
    step (present ⟨0xD312, 0, 0⟩ (stateOf cfgBit [])) = .refused .twoNotRepresentable ∧
    step (present ⟨0x2100, 2 ^ 64, 0⟩ State.reset) = .refused .scalarTooWide := by
  refine ⟨?_, test_step_wide_scalar_refused⟩
  rw [step_cons rfl, runEvent]
  exact (runCommand_ok (m := ⟨0xD312, 0, 0⟩) (i := .pow 3 1 2) (by decide) (by decide)).trans (execPow_refused (by decide))

theorem witness_StepKeepsInvariant : (wIn 0xB312 0).Inv ∧ ∃ t, step (wIn 0xB312 0) = .next t := ⟨wIn_inv _ _, _, rfl⟩

theorem witness_ReachableDigitsBelowBase :
    ∃ t, Reaches (State.resetOf Config.cfgD [.command ⟨0x2100, 342, 0⟩, .command ⟨0x8211, 0, 0⟩]) t ∧ t.reg 2 = [6, 6, 5] :=
  ⟨_, .tail (.tail .refl rfl) rfl, by decide +kernel⟩

theorem witness_StepKeepsParametersAndTakesOneInput : ∃ t, step (wIn 0x8312 0) = .next t := ⟨_, rfl⟩

/-- First part: an illegal word and ADD write no RES; second part: STN writes it, ADD does not. -/
theorem witness_ResWrittenByScalarCommandsAndNeverRead :
    (∃ t, step (wIn 0xFFFF 0) = .next t ∧ ∀ i, decode ⟨0xFFFF, 0, 0⟩ = .ok i → writesRes i = false) ∧
    (∃ t, step (wIn 0x8312 0) = .next t ∧ ∀ i, decode ⟨0x8312, 0, 0⟩ = .ok i → writesRes i = false) ∧
    (∃ t, exec (.stn 1) wA = .next t ∧ writesRes (.stn 1) = true) ∧
    (∃ t, exec (.add 3 1 2) wA = .next t ∧ writesRes (.add 3 1 2) = false) := by
  refine ⟨⟨_, rfl, ?_⟩, ⟨_, rfl, ?_⟩, ⟨_, rfl, rfl⟩, ⟨_, rfl, rfl⟩⟩
  · intro i h
    rw [show decode ⟨0xFFFF, 0, 0⟩ = .error .reservedOpcode by decide] at h
    cases h
  · intro i h
    rw [show decode ⟨0x8312, 0, 0⟩ = .ok (.add 3 1 2) by decide] at h
    cases h
    rfl

theorem witness_CompareBitsWrittenByCmpAndStatusNeverRead :
    (∃ t, exec (.mod 3 1 2) wA = .next t ∧ writesCompare (.mod 3 1 2) = false) ∧
    (∃ t, exec (.cmp 1 2) wA = .next t ∧ writesCompare (.cmp 1 2) = true) := ⟨⟨_, rfl, rfl⟩, ⟨_, rfl, rfl⟩⟩

theorem witness_RunIsCommandsInOrder :
    ({ wA with input := [.command ⟨0x8312, 0, 0⟩, .command ⟨0xFFFF, 0, 0⟩, .reset] } : State).input =
      [⟨0x8312, 0, 0⟩, ⟨0xFFFF, 0, 0⟩].map .command ++ [.reset] := rfl

/-- Both outcomes: a command that answers and the one that is refused, with two registers exchanged. -/
theorem witness_RegistersAreInterchangeable :
    (∃ t, exec (.sub 3 1 2) wA = .next t) ∧ exec (.pow 0 0 0) (stateOf cfgBit []) = .refused .twoNotRepresentable ∧
    (Instr.rename (Equiv.swap 1 2) (.sub 3 1 2)) = .sub 3 2 1 := ⟨⟨_, rfl⟩, test_pow_one_bit_refused, by decide⟩

theorem witness_EveryValueHasOneRepresentation :
    ArrayOk Config.cfgC [9, 9, 9, 9] ∧ val Config.cfgC.B [9, 9, 9, 9] = Config.cfgC.CAP - 1 := by decide +kernel

theorem witness_PackedRegisterHoldsDigits :
    ArrayOk Config.cfgD [6, 2, 6] ∧ [6, 2, 6][0]? = some 6 ∧ [6, 2, 6][2]? = some 6 := by decide +kernel

/-- MOV onto itself is the third clause. -/
theorem witness_MovCopiesRegister : (1 : Reg) = 1 ∧ wA.reg 1 ≠ wA.reg 2 := by decide +kernel

/-- The premises of the last clause. -/
theorem witness_StnReturnsValueModuloWord : ArrayOk wA.cfg (wA.reg 1) ∧ wA.cfg.CAP ≤ 2 ^ wA.cfg.K := by decide +kernel

/-- The last stored power and the first that is not stored. -/
theorem witness_GetdReadsDigitOrZero : wA.DigitsOk ∧ 1 < wA.cfg.N ∧ wA.cfg.N ≤ 2 := ⟨wA_digitsOk, by decide, by decide⟩

/-- The last stored power and the first that is not stored. -/
theorem witness_SetdWritesDigitOrNothing : wA.DigitsOk ∧ 1 < wA.cfg.N ∧ wA.cfg.N ≤ 2 := ⟨wA_digitsOk, by decide, by decide⟩

/-- A zero register and one that is not. -/
theorem witness_MsdCountsSignificantDigits : wA.DigitsOk ∧ val wA.cfg.B (wA.reg 0) = 0 ∧ 0 < val wA.cfg.B (wA.reg 1) :=
  ⟨wA_digitsOk, by decide +kernel, by decide +kernel⟩

theorem witness_LdnDecomposesScalar : 1 < wA.cfg.N := by decide

/-- The sum of these two wraps, in a state with the digit invariant. -/
theorem witness_AddWritesSumModuloCapacity :
    (stateOf Config.cfgD [(1, [2, 0, 2]), (2, [6, 0, 6])]).DigitsOk ∧
    (stateOf Config.cfgD [(1, [2, 0, 2]), (2, [6, 0, 6])]).cfg.CAP ≤
      (stateOf Config.cfgD [(1, [2, 0, 2]), (2, [6, 0, 6])]).regVal 1 +
        (stateOf Config.cfgD [(1, [2, 0, 2]), (2, [6, 0, 6])]).regVal 2 := by decide +kernel

/-- A difference below zero. -/
theorem witness_SubWritesDifferenceModuloCapacity : wA.DigitsOk ∧ wA.regVal 2 < wA.regVal 1 := ⟨wA_digitsOk, by decide +kernel⟩

theorem witness_MulWritesProductModuloCapacity : wA.DigitsOk ∧ wA.cfg.CAP ≤ wA.regVal 1 * wA.regVal 1 :=
  ⟨wA_digitsOk, by decide +kernel⟩

/-- A nonzero divisor and a zero one. -/
theorem witness_DivWritesFloorQuotient : wA.DigitsOk ∧ wA.regVal 2 ≠ 0 ∧ wA.regVal 0 = 0 :=
  ⟨wA_digitsOk, by decide +kernel, by decide +kernel⟩

/-- A nonzero divisor and a zero one. -/
theorem witness_ModWritesRemainder : wA.DigitsOk ∧ wA.regVal 2 ≠ 0 ∧ wA.regVal 0 = 0 :=
  ⟨wA_digitsOk, by decide +kernel, by decide +kernel⟩

/-- CAP = 3, the smallest for which POW has a meaning. -/
theorem witness_PowWritesPowerModuloCapacity :
    (stateOf { W := 2, N := 1, M := 2, K := 2, bounds := by decide } [(1, [2])]).DigitsOk ∧
    3 ≤ (stateOf { W := 2, N := 1, M := 2, K := 2, bounds := by decide } [(1, [2])]).cfg.CAP := by decide +kernel

theorem witness_PowRefusedWhenTwoNotRepresentable : (stateOf cfgBit []).cfg.CAP = 2 := by decide

/-- One pair for each of the three outcomes. -/
theorem witness_CmpSetsOneStatusBit :
    wA.DigitsOk ∧ wA.regVal 2 < wA.regVal 1 ∧ wA.reg 3 = wA.reg 0 := ⟨wA_digitsOk, by decide +kernel, by decide +kernel⟩

/-- The largest scalar; the last stored power; a scalar below both bounds. -/
theorem witness_LdnReadsBack : 2 ^ 64 - 1 < 2 ^ wA.cfg.K ∧ 1 < wA.cfg.N ∧ 65535 < 2 ^ wA.cfg.K ∧ 65535 < wA.cfg.CAP := by
  decide +kernel

/-- The destination may be the first source. -/
theorem witness_AddAndSubUndoEachOther : wA.DigitsOk ∧ (1 : Reg) ≠ 2 := ⟨wA_digitsOk, by decide⟩

theorem witness_DivisionIdentity :
    wA.DigitsOk ∧ (3 : Reg) ≠ 4 ∧ (3 : Reg) ≠ 1 ∧ (3 : Reg) ≠ 2 ∧ (4 : Reg) ≠ 1 ∧ (4 : Reg) ≠ 2 ∧ wA.regVal 2 ≠ 0 :=
  ⟨wA_digitsOk, by decide, by decide, by decide, by decide, by decide, by decide +kernel⟩

theorem witness_ArraysFormCommutativeRing :
    ArrayOk Config.cfgC [9, 9, 9, 9] ∧ ArrayOk Config.cfgC [0, 0, 0, 1] ∧ ArrayOk Config.cfgC [5, 0, 0, 0] := by decide +kernel

/-- An overflowing sum and an underflowing difference. -/
theorem witness_DiscardedCarryAndBorrow :
    ArrayOk Config.cfgC [9, 9, 9, 9] ∧ ArrayOk Config.cfgC [0, 0, 0, 1] ∧
    Config.cfgC.CAP ≤ val Config.cfgC.B [9, 9, 9, 9] + val Config.cfgC.B [0, 0, 0, 1] ∧
    val Config.cfgC.B [0, 0, 0, 1] < val Config.cfgC.B [9, 9, 9, 9] := by decide +kernel

theorem witness_MultiplierTermFitsTwoDigits :
    ArrayOk Config.cfgA [255, 255] ∧ (mulRow 256 [255, 255] 255 0 [0, 0] 1).2 = 254 := by decide +kernel

/-- 95 section 4.2.7, and the working values that the statement names. -/
theorem witness_AlgorithmDNormalizesAndLeavesScaledRemainder :
    ArrayOk Config.cfgC [4, 1, 0, 0] ∧ ArrayOk Config.cfgC [0, 5, 8, 8] ∧ 2 ≤ val Config.cfgC.B [0, 5, 8, 8] ∧
    val Config.cfgC.B [0, 5, 8, 8] < val Config.cfgC.B [4, 1, 0, 0] ∧
    1 = scaleFactor Config.cfgC.B (dig [0, 5, 8, 8] (msd [0, 5, 8, 8] - 1)) ∧
    [0, 0, 1, 4, 0] = scale Config.cfgC.B 1 [4, 1, 0, 0].reverse ∧
    [8, 8, 5, 0, 0] = scale Config.cfgC.B 1 [0, 5, 8, 8].reverse := by decide +kernel

theorem witness_ComparisonIsStrongTotalOrder :
    ArrayOk Config.cfgC [1, 2, 3, 4] ∧ ArrayOk Config.cfgC [1, 2, 4, 3] ∧ ArrayOk Config.cfgC [9, 0, 0, 0] ∧
    cmpArrays [1, 2, 3, 4] [1, 2, 4, 3] = .lt ∧ cmpArrays [1, 2, 4, 3] [9, 0, 0, 0] = .lt := by decide +kernel

/-- An idle port, a command that answers, and edges without reset of the length of either clause: one more than the free latency,
and exactly the free latency. -/
theorem witness_PortAnswersAcceptedCommand :
    idlePort.executing = none ∧ (∃ t, runCommand ⟨0x2100, 1000, 0⟩ idlePort.core = .next t) ∧
    (∀ k, ∀ x ∈ idleEdges k, x.rst = false) ∧
    (idleEdges (idlePort.extraCycles ⟨0x2100, 1000, 0⟩ + 1)).length = idlePort.extraCycles ⟨0x2100, 1000, 0⟩ + 1 ∧
    (idleEdges (idlePort.extraCycles ⟨0x2100, 1000, 0⟩)).length = idlePort.extraCycles ⟨0x2100, 1000, 0⟩ := by
  refine ⟨rfl, ⟨_, rfl⟩, fun k x hx => ?_, List.length_replicate, List.length_replicate⟩
  rw [List.eq_of_mem_replicate hx]

/-- Two instances, of which the first takes its own reset first and the second a refused command. -/
theorem witness_InstancesDoNotInterfere :
    twoInstances[(0 : Fin 2)] = .next (stateOf Config.cfgC [(1, [0, 0, 0, 5])]) ∧
    eventsOf (0 : Fin 2) mixedInputs = .reset :: [.command ⟨0x2100, 7, 0⟩] ∧
    eventsOf (1 : Fin 2) mixedInputs = [.command ⟨0x2100, 2 ^ 64, 0⟩, .reset] := ⟨rfl, rfl, rfl⟩

/-- The last stored power and the first that is not stored, another power, the largest value and zero. -/
theorem witness_DigitAccessorLaws :
    ArrayOk Config.cfgC [9, 9, 9, 9] ∧ 3 < Config.cfgC.N ∧ Config.cfgC.N ≤ 4 ∧ (3 : Nat) ≠ 4 ∧ 9999 < Config.cfgC.CAP ∧
    0 < Config.cfgC.CAP := by decide +kernel

theorem witness_RelationalOperatorsReadFromStatus : wA.DigitsOk := wA_digitsOk

theorem witness_SignedWrapperLaws :
    (sv .neg 7).Canonical Config.cfgC ∧ (sv .pos 0).Canonical Config.cfgC := by decide +kernel

/-- The least native integer that the statement speaks of in CFG-A with an 8-bit word. -/
theorem witness_NativeSignedRoundTrip :
    mostNegative cfgA8 < -127 ∧ (-127 : Int) < 2 ^ (cfgA8.K - 1) ∧ (-127 : Int).natAbs < cfgA8.CAP := by decide +kernel

theorem witness_PortResetAbandonsCommand : (Pins.mk true true ⟨0x2100, 7, 0⟩).rst = true := rfl

/-- Operands of opposite signs whose sum and difference fit. -/
theorem witness_SignedAddSubAreIntegerAddSub :
    (sv .neg 7).Canonical Config.cfgC ∧ (sv .pos 3).Canonical Config.cfgC ∧
    ((sv .neg 7).toInt Config.cfgC + (sv .pos 3).toInt Config.cfgC).natAbs < Config.cfgC.CAP ∧
    ((sv .neg 7).toInt Config.cfgC - (sv .pos 3).toInt Config.cfgC).natAbs < Config.cfgC.CAP := by decide +kernel

/-- A nonzero divisor with a product that fits, and a zero divisor. -/
theorem witness_SignedMulDivModCmpAgreeWithIntegers :
    (sv .neg 7).Canonical Config.cfgC ∧ (sv .pos 2).Canonical Config.cfgC ∧ (sv .pos 0).Canonical Config.cfgC ∧
    ((sv .neg 7).toInt Config.cfgC * (sv .pos 2).toInt Config.cfgC).natAbs < Config.cfgC.CAP ∧
    (sv .pos 2).toInt Config.cfgC ≠ 0 ∧ (sv .pos 0).toInt Config.cfgC = 0 := by decide +kernel

theorem witness_DriverRealisesSignedWrapper : wA.DigitsOk := wA_digitsOk

theorem witness_WideningKeepsValue :
    (stateOf Config.cfgC [(1, [0, 0, 4, 2])]).DigitsOk ∧ (stateOf cfgC6 []).DigitsOk ∧ Config.cfgC.W = cfgC6.W ∧
    Config.cfgC.M = cfgC6.M ∧ Config.cfgC.N ≤ cfgC6.N := by decide +kernel

theorem witness_NarrowingKeepsLowDigits :
    (stateOf cfgC6 [(1, [9, 9, 0, 0, 4, 2])]).DigitsOk ∧ (stateOf Config.cfgC []).DigitsOk ∧ cfgC6.W = Config.cfgC.W ∧
    cfgC6.M = Config.cfgC.M ∧ Config.cfgC.N ≤ cfgC6.N := by decide +kernel

/-- A valid numeral, the empty text, and a text with a character that is no digit of the base. -/
theorem witness_FromTextParsesNumerals :
    TextBase.decimal.radix < Config.cfgA.CAP ∧ numeral TextBase.decimal.radix ['4', '2'] = some 42 ∧
    'g' ∈ ['1', '0', 'g'] ∧ ∀ d, charDigit 'g' = some d → TextBase.hexadecimal.radix ≤ d := by
  refine ⟨by decide, by decide, by decide, fun d h => ?_⟩
  rw [show charDigit 'g' = none by decide] at h
  cases h

/-- The smallest capacity that holds the base, with the zero value and another. -/
theorem witness_TextRoundTrip :
    TextBase.hexadecimal.radix < Config.cfgB.CAP ∧ ArrayOk Config.cfgB [0, 0, 0, 0, 0, 0, 0, 0] ∧
    ArrayOk Config.cfgB [1, 1, 1, 1, 1, 1, 1, 1] := by decide +kernel

theorem witness_DriverRealisesStringCodec :
    wA.DigitsOk ∧ TextBase.decimal.radix < wA.cfg.CAP ∧ TextBase.decimal.radix < 2 ^ wA.cfg.K ∧ (1 : Reg) ≠ 5 ∧ (1 : Reg) ≠ 6 ∧
    (1 : Reg) ≠ 7 ∧ (5 : Reg) ≠ 6 ∧ (5 : Reg) ≠ 7 ∧ (6 : Reg) ≠ 7 :=
  ⟨wA_digitsOk, by decide, by decide, by decide, by decide, by decide, by decide, by decide, by decide⟩

end Sys2Proof.Tests
end

section
/-! The machine's invariant and the frame of a step (R4, R8, R15 to R17, R21): kept by one instruction, hence by a step,
hence in every state that reset reaches. -/

namespace Sys2Proof.Proofs

open Sys2Proof Sys2Proof.Machine Sys2Proof.Laws

variable {s t : State}

/-! ### One instruction -/

theorem exec_preserves_inv {i : Instr} (h : s.Inv) (he : exec i s = .next t) : t.Inv := by
  obtain ⟨rd, d, hd, rfl⟩ | ⟨x, rfl⟩ | ⟨o, rfl⟩ := exec_cases h.digits he
  · exact Inv_setReg h hd
  · exact Inv_setRes h x
  · exact Inv_setCompare h o

/-- No instruction writes the parameters or the host's inputs. -/
theorem exec_cfg_input {i : Instr} (he : exec i s = .next t) : t.cfg = s.cfg ∧ t.input = s.input := by
  obtain ⟨rd, d, rfl⟩ | ⟨x, rfl⟩ | ⟨o, rfl⟩ := exec_shape he
  · exact ⟨setReg_cfg s rd d, setReg_input s rd d⟩
  · exact ⟨setRes_cfg s x, setRes_input s x⟩
  · exact ⟨setCompare_cfg s o, setCompare_input s o⟩

/-! ### One step -/

theorem step_preserves_inv (h : s.Inv) (hs : step s = .next t) : t.Inv := by
  obtain ⟨-, rfl⟩ | ⟨rest, -, rfl⟩ | ⟨m, e, rest, -, -, rfl⟩ | ⟨m, i, rest, -, -, -, he⟩ := step_cases hs
  · exact h
  · exact Inv_resetOf s.cfg rest
  · exact Inv_illegalCommand (Inv_afterInput h rest)
  · exact exec_preserves_inv (Inv_afterInput h rest) he

theorem step_cfg_input (hs : step s = .next t) : t.cfg = s.cfg ∧ t.input = s.input.tail := by
  obtain ⟨hi, rfl⟩ | ⟨rest, hi, rfl⟩ | ⟨m, e, rest, hi, -, rfl⟩ | ⟨m, i, rest, hi, -, -, he⟩ := step_cases hs
  · simp [hi]
  · simp [hi]
  · simp [hi]
  · simpa [hi] using exec_cfg_input he

/-! ### Every state reached from reset -/

theorem reaches_resetOf_inv {c : Config} {input : List HostEvent} (h : Reaches (State.resetOf c input) t) :
    t.cfg = c ∧ t.Inv := by
  refine Reaches.induct (P := fun u => u.cfg = c ∧ u.Inv) ⟨resetOf_cfg input c, Inv_resetOf c input⟩ ?_ h
  rintro u v ⟨hcfg, hinv⟩ hs
  exact ⟨(step_cfg_input hs).1.trans hcfg, step_preserves_inv hinv hs⟩

/-! ### The obligations -/

/-- Settles O13, by the cases of a step and of an instruction. -/
theorem stepKeepsInvariant : Obligations.StepKeepsInvariant := fun _ _ => step_preserves_inv

/-- Settles O14: `State.reset` is `State.resetOf` of the reference parameters with no input. -/
theorem resetHasInvariant : Obligations.ResetHasInvariant := ⟨Inv_resetOf Config.reference [], Inv_resetOf⟩

/-- Settles O15, by induction on the steps from reset. -/
theorem reachableDigitsBelowBase : Obligations.ReachableDigitsBelowBase := by
  intro c input t h
  obtain ⟨rfl, hinv⟩ := reaches_resetOf_inv h
  exact ⟨rfl, hinv.digits⟩

/-- Settles O16, by the cases of a step. -/
theorem stepKeepsParametersAndTakesOneInput : Obligations.StepKeepsParametersAndTakesOneInput :=
  fun _ _ => step_cfg_input

end Sys2Proof.Proofs
end

section
/-! What an instruction writes, as a function of the parameters and the value registers alone (R14 to R16); one step at a time,
ST.ILL and reset (R16, R21); the values and the packing of an array (R12, R13); the answer of the port (R24). -/

namespace Sys2Proof.Proofs

open Sys2Proof Sys2Proof.Machine Sys2Proof.Laws

variable {s t : State}

/-! ### What an instruction writes -/

/-- The one thing an instruction that answers writes: a value register, RES, or ST[2:0]. -/
inductive Write where
  | reg (rd : Reg) (d : DigitArray)
  | res (x : Nat)
  | compare (o : Ordering)

/-- The state after a write. -/
def Write.apply (s : State) : Write → State
  | .reg rd d => s.setReg rd d
  | .res x => s.setRes x
  | .compare o => s.setCompare o

/-- The same write on renamed registers. -/
def Write.rename (f : Reg → Reg) : Write → Write
  | .reg rd d => .reg (f rd) d
  | .res x => .res x
  | .compare o => .compare o

/-- What an instruction writes, from the parameters and the contents of the value registers. -/
def writeOf (c : Config) (V : Reg → DigitArray) : Instr → Write
  | .zero rd => .reg rd (zeroArray c)
  | .ldn rd x => .reg rd (arr c x)
  | .mov rd rs1 => .reg rd (V rs1)
  | .stn rs1 => .res (val c.B (V rs1))
  | .getd rs1 p => .res (dig (V rs1) p)
  | .setd rd p x => .reg rd (setdig c.B (V rd) p x)
  | .msd rs1 => .res (msd (V rs1))
  | .add rd rs1 rs2 => .reg rd (addArrays c (V rs1) (V rs2))
  | .sub rd rs1 rs2 => .reg rd (subArrays c (V rs1) (V rs2))
  | .mul rd rs1 rs2 => .reg rd (mulArrays c (V rs1) (V rs2))
  | .div rd rs1 rs2 => .reg rd (divArrays c (V rs1) (V rs2))
  | .mod rd rs1 rs2 => .reg rd (modArrays c (V rs1) (V rs2))
  | .pow rd rs1 rs2 => .reg rd (powArrays c (V rs1) (V rs2))
  | .cmp rs1 rs2 => .compare (cmpArrays (V rs1) (V rs2))

/-- The refusal of R93, by the parameters alone. -/
def refusedIn (c : Config) : Instr → Prop
  | .pow _ _ _ => c.CAP = 2
  | _ => False

theorem exec_refused {i : Instr} (h : refusedIn s.cfg i) : exec i s = .refused .twoNotRepresentable := by
  cases i with
  | pow rd rs1 rs2 => exact execPow_refused h
  | _ => exact h.elim

/-- An instruction reads the parameters and the value registers, and nothing else of the state. -/
theorem exec_runs {i : Instr} (h : ¬refusedIn s.cfg i) : exec i s = .next ((writeOf s.cfg s.reg i).apply s) := by
  cases i with
  | pow rd rs1 rs2 => exact execPow_runs h
  | _ => rfl

theorem exec_next_iff {i : Instr} :
    exec i s = .next t ↔ ¬refusedIn s.cfg i ∧ t = (writeOf s.cfg s.reg i).apply s := by
  by_cases h : refusedIn s.cfg i
  · simp [exec_refused h, h]
  · simp [exec_runs h, h, eq_comm]

/-- The commands that write RES are those of R15. -/
theorem writesRes_iff {i : Instr} (c : Config) (V : Reg → DigitArray) :
    writesRes i = true ↔ ∃ x, writeOf c V i = .res x := by
  cases i <;> simp [writesRes, writeOf]

/-- The command that writes ST[2:0] is that of R16. -/
theorem writesCompare_iff {i : Instr} (c : Config) (V : Reg → DigitArray) :
    writesCompare i = true ↔ ∃ o, writeOf c V i = .compare o := by
  cases i <;> simp [writesCompare, writeOf]

/-! ### RES and ST are not read (R15, R16) -/

theorem apply_res_of_ne {w : Write} (h : ¬∃ x, w = .res x) (x : Nat) :
    (w.apply s).res = s.res ∧ w.apply { s with res := x } = { w.apply s with res := x } := by
  cases w with
  | res y => exact absurd ⟨y, rfl⟩ h
  | _ => exact ⟨rfl, rfl⟩

theorem apply_st_of_ne {w : Write} (h : ¬∃ o, w = .compare o) (y : StatusWord) :
    (w.apply s).st = s.st ∧ w.apply { s with st := y } = { w.apply s with st := y } := by
  cases w with
  | compare o => exact absurd ⟨o, rfl⟩ h
  | _ => exact ⟨rfl, rfl⟩

theorem exec_res_of_not_writesRes {i : Instr} (hw : writesRes i = false) (he : exec i s = .next t) : t.res = s.res := by
  obtain ⟨-, rfl⟩ := exec_next_iff.1 he
  exact (apply_res_of_ne (by simp [← writesRes_iff, hw]) 0).1

/-! ### Renamed registers (R14) -/

theorem writeOf_rename (c : Config) (σ : Equiv.Perm Reg) (s : State) (i : Instr) :
    writeOf c (s.rename σ).reg (Instr.rename σ i) = (writeOf c s.reg i).rename σ := by
  cases i <;> simp [Instr.rename, writeOf, Write.rename]

theorem apply_rename (σ : Equiv.Perm Reg) (s : State) (w : Write) :
    (w.rename σ).apply (s.rename σ) = (w.apply s).rename σ := by
  cases w with
  | reg rd d => exact (rename_setReg s rd d σ).symm
  | res x => exact (rename_setRes s x σ).symm
  | compare o => exact (rename_setCompare s o σ).symm

theorem refusedIn_rename (c : Config) (f : Reg → Reg) (i : Instr) : refusedIn c (Instr.rename f i) ↔ refusedIn c i := by
  cases i <;> rfl

theorem exec_rename (σ : Equiv.Perm Reg) (i : Instr) (s : State) :
    exec (Instr.rename σ i) (s.rename σ) = mapNext (State.rename σ) (exec i s) := by
  by_cases h : refusedIn s.cfg i
  · rw [exec_refused h, exec_refused (s := s.rename σ) ((refusedIn_rename _ _ _).2 h), mapNext]
  · rw [exec_runs h, exec_runs (s := s.rename σ) (mt (refusedIn_rename _ _ _).1 h), mapNext, rename_cfg, writeOf_rename,
      apply_rename]

/-! ### ST.ILL (R16) -/

theorem exec_stILL {i : Instr} (he : exec i s = .next t) : stILL t.st = stILL s.st := by
  obtain ⟨rd, d, rfl⟩ | ⟨x, rfl⟩ | ⟨o, rfl⟩ := exec_shape he
  · rw [setReg_st]
  · rw [setRes_st]
  · exact (withCompare_bits o s.st).2.2.2

/-! ### The packing of a register (R13) -/

theorem pack_cons (w x : Nat) (xs : DigitArray) :
    pack w (x :: xs) = (BitVec.ofNat w x ++ pack w xs).cast (by simp only [List.length_cons]; ring) := rfl

/-- The digit of storage index i stands at the place of power `length - 1 - i`. -/
theorem extract_pack (w : Nat) {x : Nat} : ∀ {d : DigitArray} {i : Nat}, d[i]? = some x →
    (pack w d).extractLsb' ((d.length - 1 - i) * w) w = BitVec.ofNat w x
  | [], _, h => by simp at h
  | y :: ys, 0, h => by
    obtain rfl : y = x := by simpa using h
    rw [pack_cons, BitVec.extractLsb'_cast]
    exact BitVec.extractLsb'_append_eq_left
  | y :: ys, i + 1, h => by
    have hi : i < ys.length := Nat.lt_of_succ_lt_succ (List.getElem?_eq_some_iff.1 h).1
    have hidx : (y :: ys).length - 1 - (i + 1) = ys.length - 1 - i := by simp only [List.length_cons]; omega
    have hfit : (ys.length - 1 - i) * w + w ≤ ys.length * w := by
      rw [← Nat.succ_mul]
      exact Nat.mul_le_mul_right w (by omega)
    rw [pack_cons, BitVec.extractLsb'_cast, hidx, BitVec.extractLsb'_append_eq_of_add_le hfit]
    exact extract_pack w h

/-! ### The port (R24) -/

/-- While the command executes, edges without reset only count its cycles down. -/
theorem edges_wait {m : Command} {k : Nat} : ∀ {pins : List Pins} {p : Port}, (∀ x ∈ pins, x.rst = false) →
    p.executing = some (m, k + pins.length) → p.rspValid = false →
    Port.edges pins p = .next { p with executing := some (m, k) }
  | [], p, _, he, _ => by
    rw [Port.edges, ← show p.executing = some (m, k) from he]
  | x :: xs, p, hr, he, hv => by
    rw [edges_cons (edge_wait (hr x (by simp)) he), edges_wait (fun y hy => hr y (by simp [hy])) rfl rfl, ← hv]

/-- The edge after the last cycle of the command carries its answer. -/
theorem edges_answer {m : Command} : ∀ {pins : List Pins} {k : Nat} {p : Port}, (∀ x ∈ pins, x.rst = false) →
    pins.length = k + 1 → p.executing = some (m, k) → runCommand m p.core = .next t →
    Port.edges pins p = .next { p with core := t, executing := none, rspValid := true }
  | x :: xs, 0, p, hr, hl, he, ht => by
    have hnil : xs = [] := List.length_eq_zero_iff.1 (Nat.succ.inj hl)
    rw [edges_cons (edge_answer (hr x (by simp)) he ht), hnil, Port.edges]
  | x :: xs, k + 1, p, hr, hl, he, ht => by
    rw [edges_cons (edge_wait (hr x (by simp)) he)]
    exact edges_answer (fun y hy => hr y (by simp [hy])) (Nat.succ.inj hl) rfl ht

/-! ### The obligations -/

/-- Settles O9, by the cases of a step: an instruction keeps ILL, and only the error outcome sets it. -/
theorem illIsStickyAndSetByIllegalWordsOnly : Obligations.IllIsStickyAndSetByIllegalWordsOnly := by
  intro s t hs
  obtain ⟨-, rfl⟩ | ⟨rest, hi, rfl⟩ | ⟨m, e, rest, hi, hd, rfl⟩ | ⟨m, i, rest, -, -, -, he⟩ := step_cases hs
  · exact ⟨fun h _ => h, fun h0 h1 => absurd h1 (by simp [h0])⟩
  · exact ⟨fun _ h => absurd (by rw [hi]; rfl) h, fun _ h1 => absurd h1 (by simp [stILL])⟩
  · exact ⟨fun _ _ => (withIllegal_bits _).2.2.2, fun _ _ => ⟨m, e, by rw [hi]; rfl, hd⟩⟩
  · have hk : stILL t.st = stILL s.st := exec_stILL (s := s.afterInput rest) he
    exact ⟨fun h _ => hk.trans h, fun h0 h1 => absurd h1 (by simp [hk, h0])⟩

/-- Settles O17: RES is no input of what an instruction writes, and the writes of the others leave it. -/
theorem resWrittenByScalarCommandsAndNeverRead : Obligations.ResWrittenByScalarCommandsAndNeverRead := by
  refine ⟨fun s t m rest hi hs hw => ?_, fun i s t x he => ?_⟩
  · rw [step_cons hi] at hs
    obtain ⟨-, rfl⟩ | ⟨i, hd, -, he⟩ := runCommand_cases hs
    · rfl
    · exact exec_res_of_not_writesRes (s := s.afterInput rest) (hw i hd) he
  · obtain ⟨hc, rfl⟩ := exec_next_iff.1 he
    have hx : exec i { s with res := x } = .next ((writeOf s.cfg s.reg i).apply { s with res := x }) := exec_runs hc
    refine ⟨fun hw => ?_, fun hw => ?_⟩
    · obtain ⟨y, hy⟩ := (writesRes_iff s.cfg s.reg).1 hw
      rw [hx, hy]
      exact ⟨Nat.mod_lt _ (Nat.two_pow_pos _), rfl⟩
    · rw [hx, (apply_res_of_ne (by simp [← writesRes_iff, hw]) x).2]

/-- Settles O18: ST is no input of what an instruction writes, and a comparison replaces ST[2:0] whole. -/
theorem compareBitsWrittenByCmpAndStatusNeverRead : Obligations.CompareBitsWrittenByCmpAndStatusNeverRead := by
  intro i s t y he
  obtain ⟨hc, rfl⟩ := exec_next_iff.1 he
  have hy : exec i { s with st := y } = .next ((writeOf s.cfg s.reg i).apply { s with st := y }) := exec_runs hc
  refine ⟨fun hw => ?_, fun hw => ?_⟩
  · obtain ⟨hst, hset⟩ := apply_st_of_ne (s := s) (w := writeOf s.cfg s.reg i) (by simp [← writesCompare_iff, hw]) y
    exact ⟨hst, by rw [hy, hset]⟩
  · obtain ⟨o, ho⟩ := (writesCompare_iff s.cfg s.reg).1 hw
    refine ⟨_, hy, ?_⟩
    simp [ho, Write.apply, withCompare_bits]

/-- Settles O20: renaming commutes with an instruction, refusals included. -/
theorem registersAreInterchangeable : Obligations.RegistersAreInterchangeable :=
  fun σ i s => ⟨fun t h => by rw [exec_rename, h, mapNext], fun why h => by rw [exec_rename, h, mapNext]⟩

/-- Settles O21: `arr` is the inverse of `val` below CAP, and a value is below CAP. -/
theorem everyValueHasOneRepresentation : Obligations.EveryValueHasOneRepresentation := by
  refine fun c n => ⟨?_, fun h => ⟨arr c n, ⟨arr_ok c n, ?_⟩, ?_⟩⟩
  · rintro ⟨d, ⟨hd, rfl⟩, -⟩
    exact val_lt_CAP hd
  · rw [val_arr, Nat.mod_eq_of_lt h]
  · rintro d ⟨hd, rfl⟩
    exact (arr_val hd).symm

/-- Settles O22: the place of a digit in the packing, and the bound of R4 on M. -/
theorem packedRegisterHoldsDigits : Obligations.PackedRegisterHoldsDigits := by
  rintro c d i x hd hx
  obtain ⟨hl, hb⟩ := (arrayOk_iff c d).1 hd
  exact ⟨hl ▸ extract_pack c.W hx, (hb x (List.mem_of_getElem? hx)).trans_le (B_le c)⟩

/-- Settles O48: the acceptance, then the edges that count down, and the edge that answers. -/
theorem portAnswersAcceptedCommand : Obligations.PortAnswersAcceptedCommand := by
  intro p m t pins hidle ht hr
  rw [edges_cons (edge_accept hidle)]
  refine ⟨fun hl => ?_, fun hl => ?_⟩
  · exact ⟨_, edges_answer hr hl rfl ht, rfl, rfl, rfl, rspRes_idle rfl, rspSt_idle rfl⟩
  · have he : (p.accept m).executing = some (m, p.extraCycles m - pins.length + pins.length) := by
      rw [Nat.sub_add_cancel hl, Port.accept]
    exact ⟨_, edges_wait hr he rfl, rfl, rfl, rfl⟩

/-- Settles O7, by the two shapes of the host's queue. -/
theorem stepRunsDecodedInstruction : Obligations.StepRunsDecodedInstruction :=
  fun _ _ _ _ => ⟨fun hi hd hw => (step_cons hi).trans (runCommand_ok hd hw), step_nil⟩

/-- Settles O10: the reset event is `State.applyReset`, whose registers are the all-zero array. -/
theorem resetEventClearsState : Obligations.ResetEventClearsState := by
  refine fun s rest hi => ⟨(s.afterInput rest).applyReset, step_cons hi, rfl, rfl, rfl, rfl, fun r => ?_⟩
  rw [applyReset_reg]
  exact ⟨(zeroArray_ok s.cfg).1, fun x hx => List.eq_of_mem_replicate hx⟩

end Sys2Proof.Proofs
end

section
/-! Runs of the host's inputs: on one block, a run of the machine over the head of the queue against the commands in order (R10,
R31); on a system of blocks, the inputs of one of them against the interleaving that carries them (R36, R135). -/

namespace Sys2Proof.Proofs

open Sys2Proof Sys2Proof.Machine Sys2Proof.Laws

/-! ### One more input -/

theorem core_run_next {M : Host.Core} {s t : M.State} (k : Nat) (h : M.step s = .next t) :
    M.run (k + 1) s = M.run k t := by
  rw [Host.Core.run, h]

theorem core_run_refused {M : Host.Core} {s : M.State} {r : M.Refusal} (k : Nat) (h : M.step s = .refused r) :
    M.run (k + 1) s = .refused r := by
  rw [Host.Core.run, h]

/-- `Sys2Proof.core.run`, with its types written as the model's own. -/
def runSteps (k : Nat) (s : State) : Host.Outcome State Fault Refusal := Sys2Proof.core.run k s

theorem runSteps_succ (k : Nat) (s : State) : runSteps (k + 1) s = andThen (step s) (runSteps k) := by
  cases h : step s with
  | next t => exact core_run_next k h
  | fault r => exact nomatch r
  | refused r => exact core_run_refused k h

theorem runEvents_cons (e : HostEvent) (es : List HostEvent) (s : State) :
    runEvents (e :: es) s = andThen (runEvent e s) (runEvents es) := rfl

theorem runCommands_cons (m : Command) (ms : List Command) (s : State) :
    runCommands (m :: ms) s = andThen (runCommand m s) (runCommands ms) := rfl

theorem step_afterInput_command (m : Command) (l : List HostEvent) (s : State) :
    step (s.afterInput (.command m :: l)) = runCommand m (s.afterInput l) := rfl

theorem instances_run_cons {n : Nat} (j : Fin n) (e : HostEvent) (l : List (Fin n × HostEvent)) (sys : Instances n) :
    Instances.run ((j, e) :: l) sys = Instances.run l (sys.event j e) := rfl

theorem andThen_mapNext {α : Type} (f : State → State) (o : Host.Outcome State Fault Refusal)
    (g : State → Host.Outcome α Fault Refusal) : andThen (mapNext f o) g = andThen o (fun t => g (f t)) := by
  cases o <;> rfl

/-! ### A run over the queue -/

/-- No command reads the queue, so carrying the first one out before or after the others leave the queue is the same. -/
theorem runSteps_afterInput (rest : List HostEvent) (ms : List Command) (s : State) :
    runSteps ms.length (s.afterInput (ms.map .command ++ rest)) = runCommands ms (s.afterInput rest) := by
  induction ms generalizing s with
  | nil => rfl
  | cons m ms ih =>
    rw [List.length_cons, runSteps_succ, List.map_cons, List.cons_append, step_afterInput_command, runCommands_cons,
      runCommand_afterInput m s, runCommand_afterInput m s, andThen_mapNext, andThen_mapNext, funext ih]

/-! ### A system of instances -/

/-- An input to another block leaves block k; an input to k is the first of its own. -/
theorem instances_run_get {n : Nat} (k : Fin n) (l : List (Fin n × HostEvent)) (sys : Instances n) :
    (Instances.run l sys)[k] = andThen sys[k] (runEvents (eventsOf k l)) := by
  induction l generalizing sys with
  | nil => rw [eventsOf_nil, andThen_runEvents_nil, Instances.run]
  | cons je l ih =>
    obtain ⟨j, e⟩ := je
    rw [instances_run_cons, ih, event_get, eventsOf_cons]
    by_cases h : j = k
    · rw [if_pos h, if_pos h, andThen_assoc, ← funext (runEvents_cons e _)]
    · rw [if_neg h, if_neg h]

/-! ### The obligations -/

/-- Settles O19: a state is itself with its own queue put back. -/
theorem runIsCommandsInOrder : Obligations.RunIsCommandsInOrder := by
  intro ms s rest hi
  rw [← runSteps_afterInput, ← hi]
  rfl

/-- Settles O23, by induction on the interleaving; a reset leads to the reset state from any state. -/
theorem instancesDoNotInterfere : Obligations.InstancesDoNotInterfere := by
  refine fun n l sys k => ⟨instances_run_get k l sys, fun s es hs he => ?_⟩
  rw [instances_run_get, hs, he, andThen_next, runEvents_cons, runEvent, andThen_next, State.applyReset]

end Sys2Proof.Proofs
end

section
/-! The encoding (R37 to R48): decoder and encoder as inverses of each other, and the legal words as those that select a row of
the opcode map. -/

namespace Sys2Proof.Proofs

open Sys2Proof Sys2Proof.Machine Sys2Proof.Laws

/-! ### Decoder and encoder (R43) -/

theorem decode_encode (i : Instr) : decode (encode i) = .ok i := by
  cases i <;> exact decode_formatC ..

theorem checkUnused_ok {b : Bool} {i j : Instr} : checkUnused b i = .ok j ↔ b = true ∧ i = j := by
  cases b <;> simp [checkUnused]

/-- What the case analysis of R43 answers is encoded with the same fields: an unused one was seen to be zero. -/
theorem encode_of_decodeFields {n : Nat} {rd rs1 rs2 : Reg} {xa xb : Nat} {i : Instr}
    (h : decodeFields n rd rs1 rs2 xa xb = .ok i) : (encode i).cw = formatC (BitVec.ofNat 4 n) rd rs1 rs2 := by
  unfold decodeFields at h
  split at h
  case h_8 | h_9 | h_10 | h_11 | h_12 | h_13 => cases h; rfl
  case h_15 => cases h
  all_goals
    obtain ⟨hz, rfl⟩ := checkUnused_ok.1 h
    simp only [Bool.and_eq_true, beq_iff_eq] at hz
    simp [encode, hz]

theorem encode_of_decode {m : Command} {i : Instr} (h : decode m = .ok i) : (encode i).cw = m.cw := by
  rw [encode_of_decodeFields h, BitVec.ofNat_toNat, BitVec.setWidth_eq, formatC_fields]

/-! ### The rows of the opcode map (R42) -/

theorem encodeRow (i : Instr) : EncodeRow.Statement i := by
  cases i with
  | zero rd => exact EncodeRow.zero rd
  | ldn rd x => exact EncodeRow.ldn rd x
  | mov rd rs1 => exact EncodeRow.mov rd rs1
  | stn rs1 => exact EncodeRow.stn rs1
  | getd rs1 p => exact EncodeRow.getd rs1 p
  | setd rd p x => exact EncodeRow.setd rd p x
  | msd rs1 => exact EncodeRow.msd rs1
  | add rd rs1 rs2 => exact EncodeRow.add rd rs1 rs2
  | sub rd rs1 rs2 => exact EncodeRow.sub rd rs1 rs2
  | mul rd rs1 rs2 => exact EncodeRow.mul rd rs1 rs2
  | div rd rs1 rs2 => exact EncodeRow.div rd rs1 rs2
  | mod rd rs1 rs2 => exact EncodeRow.mod rd rs1 rs2
  | pow rd rs1 rs2 => exact EncodeRow.pow rd rs1 rs2
  | cmp rs1 rs2 => exact EncodeRow.cmp rs1 rs2

variable {row : OpcodeRow} {cw : CommandWord}

/-- A field that the row's mask covers is the row's own in every word the row selects. -/
theorem field_of_selects (h : row.selects cw = true) {k : Nat} (hk : row.mask.extractLsb' k 4 = 15#4) :
    cw.extractLsb' k 4 = row.pattern.extractLsb' k 4 := by
  rw [← beq_iff_eq.1 h, BitVec.extractLsb'_and, hk]
  exact (BitVec.and_allOnes (x := cw.extractLsb' k 4)).symm

theorem opField_of_selects (hr : row ∈ opcodeRows) (h : row.selects cw = true) : opField cw = opField row.pattern :=
  field_of_selects h ((by decide : ∀ r ∈ opcodeRows, r.mask.extractLsb' 12 4 = 15#4) row hr)

theorem rows_of_opcode : ∀ row ∈ opcodeRows,
    opcodeRows.filter (fun r => opField r.pattern == opField row.pattern) = [row] := by decide

/-- The opcodes of the rows are distinct, so no other row selects the word. -/
theorem filter_selects (hr : row ∈ opcodeRows) (h : row.selects cw = true) :
    opcodeRows.filter (fun r => r.selects cw) = [row] := by
  rw [← rows_of_opcode row hr]
  refine List.filter_congr fun r hm => Bool.eq_iff_iff.2 ⟨fun hs => ?_, fun ho => ?_⟩
  · rw [beq_iff_eq, ← opField_of_selects hm hs, opField_of_selects hr h]
  · have : r ∈ [row] := rows_of_opcode row hr ▸ List.mem_filter.2 ⟨hm, ho⟩
    rwa [List.mem_singleton.1 this]

/-- The fields that a row's mask covers are those that its command does not use (R39, R42). -/
theorem decodeFields_of_row (xa xb : Nat) : ∀ row ∈ opcodeRows, ∀ rd rs1 rs2 : Reg,
    (row.mask.extractLsb' 8 4 = 15#4 → rd = 0) → (row.mask.extractLsb' 4 4 = 15#4 → rs1 = 0) →
    (row.mask.extractLsb' 0 4 = 15#4 → rs2 = 0) →
    ∃ i, decodeFields (opField row.pattern).toNat rd rs1 rs2 xa xb = .ok i := by
  simp only [opcodeRows, List.forall_mem_cons]
  refine ⟨?zero, ?ldn, ?mov, ?stn, ?getd, ?setd, ?msd, ?add, ?sub, ?mul, ?div, ?mod, ?pow, ?cmp, by simp⟩ <;>
    intro rd rs1 rs2 hrd hrs1 hrs2
  case zero | ldn | setd => rw [hrs1 rfl, hrs2 rfl]; exact ⟨_, rfl⟩
  case mov => rw [hrs2 rfl]; exact ⟨_, rfl⟩
  case stn | getd | msd => rw [hrd rfl, hrs2 rfl]; exact ⟨_, rfl⟩
  case cmp => rw [hrd rfl]; exact ⟨_, rfl⟩
  case add | sub | mul | div | mod | pow => exact ⟨_, rfl⟩

theorem zero_fields_of_row : ∀ row ∈ opcodeRows,
    rdField row.pattern = 0 ∧ rs1Field row.pattern = 0 ∧ rs2Field row.pattern = 0 := by decide

/-- A word is legal when a row selects it (R37, R42). -/
theorem decode_ok_iff (m : Command) : (∃ i, decode m = .ok i) ↔ ∃ row ∈ opcodeRows, row.selects m.cw = true := by
  constructor
  · rintro ⟨i, hi⟩
    obtain ⟨row, hr, -, hs⟩ := encodeRow i
    exact ⟨row, hr, encode_of_decode hi ▸ hs⟩
  · rintro ⟨row, hr, hs⟩
    obtain ⟨hrd, hrs1, hrs2⟩ := zero_fields_of_row row hr
    have reg {k : Nat} (hk : row.mask.extractLsb' k 4 = 15#4) :
        (m.cw.extractLsb' k 4).toFin = (row.pattern.extractLsb' k 4).toFin := by rw [field_of_selects hs hk]
    rw [decode, opField_of_selects hr hs]
    exact decodeFields_of_row m.xa m.xb row hr _ _ _ (fun hk => (reg hk).trans hrd) (fun hk => (reg hk).trans hrs1)
      (fun hk => (reg hk).trans hrs2)

/-! ### The scalars (R40) -/

variable {n : Nat} {rd rs1 rs2 : Reg} {xa xb xa' xb' : Nat}

theorem decodeFields_ignores_xb (h : n ≠ 6) : decodeFields n rd rs1 rs2 xa xb = decodeFields n rd rs1 rs2 xa xb' := by
  unfold decodeFields
  split
  case h_6 => exact absurd rfl h
  all_goals rfl

theorem decodeFields_ignores_scalars (h2 : n ≠ 2) (h5 : n ≠ 5) (h6 : n ≠ 6) :
    decodeFields n rd rs1 rs2 xa xb = decodeFields n rd rs1 rs2 xa' xb' := by
  unfold decodeFields
  split
  case h_2 => exact absurd rfl h2
  case h_5 => exact absurd rfl h5
  case h_6 => exact absurd rfl h6
  all_goals rfl

/-! ### The obligations -/

/-- Settles O2, by the fields of each instruction's word. -/
theorem decodeOfEncode : Obligations.DecodeOfEncode := decode_encode

/-- Settles O3: a word is the format C word of its fields. -/
theorem encodeOfDecode : Obligations.EncodeOfDecode := fun _ _ => encode_of_decode

/-- Settles O4: a legal word is the word of its instruction, which selects its own row; without a row a word is not legal. -/
theorem decodeAgreesWithOpcodeRows : Obligations.DecodeAgreesWithOpcodeRows := by
  refine fun m => ⟨fun i hi => ?_, fun e he => ?_⟩
  · obtain ⟨row, hr, hn, hs⟩ := encodeRow i
    exact ⟨row, filter_selects hr (encode_of_decode hi ▸ hs), hn⟩
  · refine List.filter_eq_nil_iff.2 fun row hr hs => ?_
    obtain ⟨i, hi⟩ := (decode_ok_iff m).2 ⟨row, hr, hs⟩
    exact nomatch he.symm.trans hi

/-- Settles O5: the case analysis passes the scalars on, and legality is a row's selection of the word. -/
theorem ignoredScalarsDoNotMatter : Obligations.IgnoredScalarsDoNotMatter := by
  intro cw xa xb xa' xb'
  have op_ne {o : BitVec 4} (h : opField cw ≠ o) : (opField cw).toNat ≠ o.toNat := fun he => h (BitVec.eq_of_toNat_eq he)
  exact ⟨fun h6 => decodeFields_ignores_xb (op_ne h6),
    fun h2 h5 h6 => decodeFields_ignores_scalars (op_ne h2) (op_ne h5) (op_ne h6),
    (decode_ok_iff ⟨cw, xa, xb⟩).trans (decode_ok_iff ⟨cw, xa', xb'⟩).symm⟩

/-- Settles O1: the legal words are the encodings of their instructions. -/
theorem workedEncodingsDecode : Obligations.WorkedEncodingsDecode :=
  ⟨decode_encode (.add 3 1 2), decode_encode (.div 3 1 2), decode_encode (.ldn 1 1000), decode_encode (.setd 1 3 12),
    decode_encode (.getd 10 0), decode_encode (.cmp 6 1), decode_encode (.mov 15 0), decode_encode (.zero 0),
    decode_encode (.stn 3), decode_encode (.msd 1), rfl, rfl, rfl, rfl, rfl, rfl⟩

end Sys2Proof.Proofs
end

section
/-! The assembler (R47) on the lines that it writes: white space and commas come apart where the line put them. -/

namespace Sys2Proof.Proofs

open Sys2Proof Sys2Proof.Machine Sys2Proof.Laws

/-- The operands of a line as R47 writes them. -/
def operandsText (ops : List AsmOperand) : List Char := [',', ' '].intercalate (ops.map operandText)

theorem disassemble_eq (i : Instr) :
    disassemble i = mnemonicChars i ++ ' ' :: operandsText (Sys2Proof.Machine.Instr.operands i) := by
  rw [disassemble, mnemonic_toList, List.append_assoc]
  rfl

theorem operandsText_singleton (o : AsmOperand) : operandsText [o] = operandText o := List.intercalate_singleton

theorem operandsText_cons_cons (o o' : AsmOperand) (ops : List AsmOperand) :
    operandsText (o :: o' :: ops) = operandText o ++ ',' :: ' ' :: operandsText (o' :: ops) := by
  rw [operandsText, List.map_cons, List.map_cons, List.intercalate_cons_cons, List.append_assoc]
  rfl

theorem operands_ne_nil (i : Instr) : Sys2Proof.Machine.Instr.operands i ≠ [] := by
  cases i <;> exact List.cons_ne_nil _ _

/-! ### The characters of a line -/

theorem head_operandsText (o : AsmOperand) (ops : List AsmOperand) :
    (operandsText (o :: ops)).head? = (operandText o).head? := by
  cases ops with
  | nil => rw [operandsText_singleton]
  | cons o' ops => rw [operandsText_cons_cons, List.head?_append_of_ne_nil _ (operandText_ne_nil o)]

theorem operandsText_ne_nil (o : AsmOperand) (ops : List AsmOperand) : operandsText (o :: ops) ≠ [] := by
  cases ops with
  | nil => exact operandsText_singleton o ▸ operandText_ne_nil o
  | cons o' ops =>
    rw [operandsText_cons_cons]
    exact List.append_ne_nil_of_left_ne_nil (operandText_ne_nil o) _

/-- A list of operands ends as its last one does, so with no white space. -/
theorem getLast_operandsText {ops : List AsmOperand} : ∀ ch ∈ (operandsText ops).getLast?, isStreamSpace ch = false := by
  induction ops with
  | nil => simp [operandsText]
  | cons o ops ih =>
    cases ops with
    | nil =>
      rw [operandsText_singleton]
      exact fun ch hc => (operandText_plain o (List.mem_of_mem_getLast? hc)).1
    | cons o' ops =>
      rw [operandsText_cons_cons, List.append_cons, List.append_cons,
        List.getLast?_append_of_ne_nil _ (operandsText_ne_nil o' ops)]
      exact ih

theorem operandsText_no_comment {ops : List AsmOperand} : ∀ ch ∈ operandsText ops, ch ≠ ';' := by
  induction ops with
  | nil => simp [operandsText]
  | cons o ops ih =>
    have ho : ∀ ch ∈ operandText o, ch ≠ ';' := fun ch h => (operandText_plain o h).2.2
    cases ops with
    | nil => rwa [operandsText_singleton]
    | cons o' ops =>
      simp only [operandsText_cons_cons, List.forall_mem_append, List.forall_mem_cons]
      exact ⟨ho, by decide, by decide, ih⟩

/-! ### Operands read back -/

theorem splitCommas_ne_nil (text : List Char) : splitCommas text ≠ [] := by
  cases text with
  | nil => exact List.cons_ne_nil _ _
  | cons ch text =>
    rw [splitCommas]
    split
    · exact List.cons_ne_nil _ _
    · split <;> exact List.cons_ne_nil _ _

theorem splitCommas_space (text : List Char) :
    (splitCommas (' ' :: text)).map trimSpace = (splitCommas text).map trimSpace := by
  rw [splitCommas, if_neg (by decide)]
  split
  case h_1 h => exact absurd h (splitCommas_ne_nil text)
  case h_2 piece pieces h => rw [h, List.map_cons, List.map_cons, trimSpace_space]

/-- The pieces between the commas are the operands as written. -/
theorem splitCommas_operandsText {ops : List AsmOperand} (h : ops ≠ []) :
    (splitCommas (operandsText ops)).map trimSpace = ops.map operandText := by
  induction ops with
  | nil => exact absurd rfl h
  | cons o ops ih =>
    have hcomma : ∀ ch ∈ operandText o, ch ≠ ',' := fun ch h => (operandText_plain o h).2.1
    have htrim : trimSpace (operandText o) = operandText o := trimSpace_plain fun ch => operandText_plain o
    cases ops with
    | nil => rw [operandsText_singleton, splitCommas_plain hcomma, List.map_singleton, htrim, List.map_singleton]
    | cons o' ops =>
      rw [operandsText_cons_cons, splitCommas_append hcomma, List.map_cons, htrim, splitCommas_space,
        ih (List.cons_ne_nil _ _), List.map_cons (l := o' :: ops)]

theorem mapM_parseOperand (ops : List AsmOperand) : (ops.map operandText).mapM parseOperand = some ops := by
  induction ops with
  | nil => rfl
  | cons o ops ih => rw [List.map_cons, List.mapM_cons, parseOperand_operandText, ih]; rfl

theorem trimSpace_operandsText (o : AsmOperand) (ops : List AsmOperand) :
    trimSpace (operandsText (o :: ops)) = operandsText (o :: ops) := by
  refine trimSpace_eq (fun ch hc => ?_) getLast_operandsText
  rw [head_operandsText] at hc
  exact (operandText_plain o (List.mem_of_mem_head? hc)).1

theorem parseOperands_operandsText {ops : List AsmOperand} (h : ops ≠ []) :
    parseOperands (' ' :: operandsText ops) = some ops := by
  obtain ⟨o, ops, rfl⟩ := List.exists_cons_of_ne_nil h
  rw [parseOperands, trimSpace_space, trimSpace_operandsText]
  split
  case h_1 hn => exact absurd hn (operandsText_ne_nil o ops)
  case h_2 =>
    rw [← mapM_parseOperand (o :: ops), ← splitCommas_operandsText h, List.mapM_map]
    rfl

/-! ### The line -/

theorem takeWhile_disassemble (i : Instr) : (disassemble i).takeWhile (fun ch => ch != ';') = disassemble i := by
  rw [List.takeWhile_eq_self_iff, disassemble_eq]
  simp only [bne_iff_ne, List.forall_mem_append, List.forall_mem_cons]
  exact ⟨fun ch h => ((mnemonicChars_plain i).2 ch h).2.2, by decide, operandsText_no_comment⟩

theorem trimSpace_disassemble (i : Instr) : trimSpace (disassemble i) = disassemble i := by
  obtain ⟨hne, hplain⟩ := mnemonicChars_plain i
  obtain ⟨o, ops, ho⟩ := List.exists_cons_of_ne_nil (operands_ne_nil i)
  rw [disassemble_eq]
  refine trimSpace_eq (fun ch hc => ?_) ?_
  · rw [List.head?_append_of_ne_nil _ hne] at hc
    exact (hplain ch (List.mem_of_mem_head? hc)).1
  · rw [List.append_cons, ho, List.getLast?_append_of_ne_nil _ (operandsText_ne_nil o ops)]
    exact getLast_operandsText

theorem span_disassemble (i : Instr) : (disassemble i).span (fun ch => !isStreamSpace ch) =
    (mnemonicChars i, ' ' :: operandsText (Sys2Proof.Machine.Instr.operands i)) := by
  have hplain : ∀ ch ∈ mnemonicChars i, (!isStreamSpace ch) = true := fun ch h =>
    congrArg not ((mnemonicChars_plain i).2 ch h).1
  rw [disassemble_eq, List.span_eq_takeWhile_dropWhile, List.takeWhile_append_of_pos hplain,
    List.dropWhile_append_of_pos hplain]
  rw [List.takeWhile_cons_of_neg (by decide), List.dropWhile_cons_of_neg (by decide), List.append_nil]

theorem disassemble_ne_nil (i : Instr) : disassemble i ≠ [] := by simp [disassemble_eq]

/-- Settles O6: the line comes apart into the mnemonic and the operands, and they build the instruction. -/
theorem assembleOfDisassemble : Obligations.AssembleOfDisassemble := by
  intro i
  rw [assembleLine, takeWhile_disassemble, trimSpace_disassemble]
  split
  case h_1 h => exact absurd h (disassemble_ne_nil i)
  case h_2 => simp only [span_disassemble, parseOperands_operandsText (operands_ne_nil i), buildCommand_operands]

end Sys2Proof.Proofs
end

section
/-! The digit-array commands (R54 to R62): the accessors on `arr`, what an accessor reads fitting a scalar word, and one command
at a time. -/

namespace Sys2Proof.Proofs

open Sys2Proof Sys2Proof.Machine Sys2Proof.Laws

variable {c : Config} {d : DigitArray}

/-! ### The accessors -/

/-- The digit of power p stands at storage index N-1-p (R50). -/
theorem getElem?_eq_dig {p : Nat} (h : p < d.length) : d[d.length - 1 - p]? = some (dig d p) := by
  have hi : d.length - 1 - p < d.length := by omega
  rw [dig, if_pos h, List.getD_eq_getElem _ _ hi, List.getElem?_eq_getElem hi]

theorem dig_arr {p : Nat} (h : p < c.N) (n : Nat) : dig (arr c n) p = n / c.B ^ p % c.B := by
  have hsplit : c.CAP = c.B ^ p * c.B ^ (c.N - p) := (pow_mul_pow_sub _ h.le).symm
  rw [dig_eq c.B _ ((arrayOk_iff c _).1 (arr_ok c n)).2, val_arr, hsplit, Nat.mod_mul_right_div_self,
    Nat.mod_mod_of_dvd _ (dvd_pow_self _ (by omega))]

theorem dig_mod_two_pow_K (h : ArrayOk c d) (p : Nat) : dig d p % 2 ^ c.K = dig d p :=
  Nat.mod_eq_of_lt ((dig_lt ((arrayOk_iff c d).1 h).2 (B_pos c) p).trans_le (B_le_two_pow_K c))

/-- A register's own content written back changes nothing. -/
theorem setReg_self (s : State) (r : Reg) : s.setReg r (s.reg r) = s := by
  rw [State.setReg, State.reg, Fin.getElem_fin, Vector.set_getElem_self]

/-! ### The obligations -/

/-- Settles O60, by the laws of the accessors and of `arr` as the inverse of `val`. -/
theorem digitAccessorLaws : Obligations.DigitAccessorLaws := by
  intro c d p q x n hd
  have hl := hd.1
  refine ⟨fun hp => ?_, fun hp => ?_, fun hq => dig_setdig_other d hq x, val_lt_CAP hd, arr_val hd, fun hn => ?_⟩
  · have hp : p < d.length := hl ▸ hp
    have hval := congrArg (Nat.cast (R := Int)) (val_setdig (B := c.B) d hp x)
    push_cast at hval ⊢
    exact ⟨dig_setdig_same hp x, by linear_combination hval⟩
  · exact dig_of_length_le (by rwa [setdig_length, hl])
  · have hval : val c.B (arr c n) = n := (val_arr c n).trans (Nat.mod_eq_of_lt hn)
    have hmsd := msd_eq_zero_iff (B_pos c) ((arrayOk_iff c _).1 (arr_ok c n)).2
    rw [hval] at hmsd
    exact ⟨arr_ok c n, hval, hmsd⟩

/-- Settles O24: what is written is the all-zero array. -/
theorem zeroClearsRegister : Obligations.ZeroClearsRegister := by
  refine fun s rd xa xb => ⟨decode_formatC .., _, rfl, ?_, ?_, onlyReg_setReg rd _⟩ <;> rw [setReg_reg_same]
  · exact (zeroArray_ok s.cfg).1
  · exact fun x hx => List.eq_of_mem_replicate hx

/-- Settles O25: what is written is `arr x`, whose digits are the base-B decomposition. -/
theorem ldnDecomposesScalar : Obligations.LdnDecomposesScalar := by
  refine fun s rd x xb => ⟨decode_formatC .., _, rfl, ?_, ?_, ?_, onlyReg_setReg rd _⟩ <;> rw [setReg_reg_same]
  · exact arr_ok s.cfg x
  · exact fun p hp => dig_arr hp x
  · exact val_arr s.cfg x

/-- Settles O26: for rd = rs1 the register's own content is written back. -/
theorem movCopiesRegister : Obligations.MovCopiesRegister := by
  refine fun s rd rs1 xa xb => ⟨decode_formatC .., _, rfl, setReg_reg_same s rd _, onlyReg_setReg rd _, ?_⟩
  rintro rfl
  exact setReg_self s rd

/-- Settles O27: a value below CAP is below 2^K when CAP is at most 2^K. -/
theorem stnReturnsValueModuloWord : Obligations.StnReturnsValueModuloWord :=
  fun _ _ _ _ => ⟨decode_formatC .., _, rfl, rfl, onlyRes_setRes _,
    fun hok hcap => Nat.mod_eq_of_lt ((val_lt_CAP hok).trans_le hcap)⟩

/-- Settles O28: RES holds every digit, so what is written is the digit itself. -/
theorem getdReadsDigitOrZero : Obligations.GetdReadsDigitOrZero := by
  intro s rs1 p xb h
  obtain ⟨hl, hb⟩ := (arrayOk_iff _ _).1 (h rs1)
  refine ⟨decode_formatC .., s.setRes (dig (s.reg rs1) p), rfl, onlyRes_setRes _, ?_⟩
  rw [setRes_res, dig_mod_two_pow_K (h rs1), ← hl]
  exact ⟨fun hp => ⟨getElem?_eq_dig hp, dig_eq _ _ hb p⟩, dig_of_length_le⟩

/-- Settles O29: past the stored width the register's own content is written back. -/
theorem setdWritesDigitOrNothing : Obligations.SetdWritesDigitOrNothing := by
  intro s rd p x h
  refine ⟨decode_formatC .., s.setReg rd (setdig s.cfg.B (s.reg rd) p x), rfl, ?_, onlyReg_setReg rd _, fun hp => ?_,
    fun hp => ?_⟩
  · rw [setReg_reg_same]
    exact setdig_ok (h rd) p x
  · rw [setReg_reg_same]
    exact ⟨dig_setdig_same ((h rd).1 ▸ hp) x, fun q hq => dig_setdig_other _ hq x⟩
  · rw [setdig_of_length_le ((h rd).1 ▸ hp), setReg_self]

/-- Settles O30: RES holds every digit count, and the count bounds the value on both sides. -/
theorem msdCountsSignificantDigits : Obligations.MsdCountsSignificantDigits := by
  intro s rs1 xa xb h
  obtain ⟨hl, hb⟩ := (arrayOk_iff _ _).1 (h rs1)
  have hzero := msd_eq_zero_iff (B_pos s.cfg) hb
  refine ⟨decode_formatC .., s.setRes (msd (s.reg rs1)), rfl, onlyRes_setRes _, ?_⟩
  rw [setRes_res, Nat.mod_eq_of_lt (msd_lt_two_pow_K h rs1)]
  refine ⟨hl ▸ msd_le _, hzero, fun hpos => ⟨pow_msd_le_val (B_pos _) ?_, val_lt_pow_msd (B_pos _) hb⟩⟩
  exact Nat.pos_of_ne_zero fun hm => hpos.ne' (hzero.1 hm)

/-- Settles O39: the register that LDN wrote holds `arr x`, and RES holds its digits, and x itself. -/
theorem ldnReadsBack : Obligations.LdnReadsBack := by
  intro s rd x p hx
  have hldn (i : Instr) : issueAll [.ldn rd x, i] s = issueAll [i] (s.setReg rd (arr s.cfg x)) :=
    issueAll_cons (decide_eq_true hx) rfl
  refine ⟨fun hp => ⟨_, (hldn _).trans (issueAll_cons (decide_eq_true ?_) rfl), ?_⟩,
    fun hcap => ⟨_, (hldn _).trans (issueAll_cons rfl rfl), ?_⟩⟩
  · exact hp.trans (wf_facts s.cfg).2.2.2.2.2
  · rw [setRes_res, setReg_reg_same, setReg_cfg, dig_mod_two_pow_K (arr_ok s.cfg x), dig_arr hp]
  · rw [setRes_res, State.regVal, setReg_reg_same, setReg_cfg, val_arr, Nat.mod_eq_of_lt hcap, Nat.mod_eq_of_lt hx]

end Sys2Proof.Proofs
end

section
/-! A value moved between two blocks of one base (R61): widening as a function, and the host's ZERO, GETD, SETD loop, whose
first k turns leave the source's value modulo B^k in the target register. -/

namespace Sys2Proof.Proofs

open Sys2Proof Sys2Proof.Machine Sys2Proof.Laws

variable {s t : State}

/-! ### Widening -/

theorem val_widen (B n : Nat) (d : DigitArray) : val B (widen n d) = val B d := by
  rw [widen, val_append, val_replicate_zero, zero_mul, zero_add]

theorem widen_below {B : Nat} (hB : 0 < B) (n : Nat) {d : DigitArray} (h : Below B d) : Below B (widen n d) := by
  intro x hx
  obtain hx | hx := List.mem_append.1 hx
  · exact List.eq_of_mem_replicate hx ▸ hB
  · exact h x hx

theorem dig_widen {B : Nat} (hB : 0 < B) (n : Nat) {d : DigitArray} (h : Below B d) (p : Nat) :
    dig (widen n d) p = dig d p := by
  rw [dig_eq B _ (widen_below hB n h), val_widen, dig_eq B d h]

/-- On an array of at most N digits below B, widening to N digits is `arr` of the value. -/
theorem widen_eq_arr {c : Config} {d : DigitArray} (hl : d.length ≤ c.N) (h : Below c.B d) :
    widen c.N d = arr c (val c.B d) := by
  have hlen : (widen c.N d).length = c.N := by simp [widen, hl]
  have hok : ArrayOk c (widen c.N d) := (arrayOk_iff c _).2 ⟨hlen, widen_below (B_pos c) _ h⟩
  rw [← val_widen c.B c.N d, arr_val hok]

/-! ### One turn of the loop -/

theorem mod_pow_mod_CAP {c : Config} {k : Nat} (h : k ≤ c.N) (n : Nat) : n % c.B ^ k % c.CAP = n % c.B ^ k :=
  Nat.mod_eq_of_lt ((Nat.mod_lt _ (Nat.pow_pos (B_pos c))).trans_le (Nat.pow_le_pow_right (B_pos c) h))

/-- The digit of power k put on top of the k digits below it. -/
theorem setdig_arr {c : Config} {k : Nat} (h : k < c.N) (n : Nat) :
    setdig c.B (arr c (n % c.B ^ k)) k (n / c.B ^ k % c.B) = arr c (n % c.B ^ (k + 1)) := by
  have hlen : k < (arr c (n % c.B ^ k)).length := (arr_ok c _).1 ▸ h
  have hval := val_setdig (B := c.B) _ hlen (n / c.B ^ k % c.B)
  rw [dig_arr h, Nat.mod_div_self, Nat.zero_mod, zero_mul, add_zero, val_arr, mod_pow_mod_CAP h.le, Nat.mod_mod] at hval
  refine eq_arr (setdig_ok (arr_ok c _) _ _) ?_
  rw [hval, mod_pow_mod_CAP h, Nat.mod_pow_succ, mul_comm]

theorem setReg_setReg (s : State) (r : Reg) (d e : DigitArray) : (s.setReg r d).setReg r e = s.setReg r e := by
  simp [State.setReg]

theorem issue_getd {p : Nat} (hp : p < 2 ^ s.cfg.K) (rs : Reg) :
    issue (.getd rs p) s = .next (s.setRes (dig (s.reg rs) p)) :=
  issue_next (decide_eq_true hp) rfl

theorem issue_setd {p x : Nat} (hp : p < 2 ^ s.cfg.K) (hx : x < 2 ^ s.cfg.K) (rd : Reg) :
    issue (.setd rd p x) s = .next (s.setReg rd (setdig s.cfg.B (s.reg rd) p x)) :=
  issue_next (by simp [Instr.wf, Config.scalarOk, hp, hx]) rfl

/-- Turn k of the loop, for a digit that both scalar words hold. -/
theorem driverCopyDigits_succ {p : TwoInstances} {rs rd : Reg} {k : Nat} (h : driverCopyDigits rs rd k p = .next ⟨s, t⟩)
    (hsrc : ArrayOk s.cfg (s.reg rs)) (hks : k < 2 ^ s.cfg.K) (hkt : k < 2 ^ t.cfg.K)
    (hdig : dig (s.reg rs) k < 2 ^ t.cfg.K) :
    driverCopyDigits rs rd (k + 1) p =
      .next ⟨s.setRes (dig (s.reg rs) k), t.setReg rd (setdig t.cfg.B (t.reg rd) k (dig (s.reg rs) k))⟩ := by
  simp only [driverCopyDigits, h, issue_getd hks, andThen_next, setRes_res, dig_mod_two_pow_K hsrc, issue_setd hkt hdig]

/-! ### The loop -/

/-- After k turns the target holds the low k digits of the source, whose block has changed in RES alone. -/
theorem driverCopyDigits_eq {rs : Reg} (hB : s.cfg.B = t.cfg.B) (hok : ArrayOk s.cfg (s.reg rs)) (rd : Reg) {k : Nat}
    (hs : k ≤ s.cfg.N) (ht : k ≤ t.cfg.N) :
    ∃ u, OnlyRes s u ∧ driverCopyDigits rs rd k ⟨s, t.setReg rd (zeroArray t.cfg)⟩ =
      .next ⟨u, t.setReg rd (arr t.cfg (s.regVal rs % t.cfg.B ^ k))⟩ := by
  induction k with
  | zero =>
    refine ⟨s, ⟨rfl, rfl, rfl, fun _ => rfl⟩, ?_⟩
    rw [pow_zero, Nat.mod_one, ← zeroArray_eq, driverCopyDigits]
  | succ k ih =>
    obtain ⟨u, ⟨hcfg, hinput, hst, hreg⟩, hu⟩ := ih (Nat.le_of_succ_le hs) (Nat.le_of_succ_le ht)
    have hsrc : ArrayOk u.cfg (u.reg rs) := by
      rw [hcfg, hreg]
      exact hok
    have hks : k < 2 ^ u.cfg.K := hcfg ▸ hs.trans (wf_facts s.cfg).2.2.2.2.2.le
    have hkt : k < 2 ^ t.cfg.K := ht.trans (wf_facts t.cfg).2.2.2.2.2.le
    have hdig : dig (u.reg rs) k = s.regVal rs / t.cfg.B ^ k % t.cfg.B := by
      rw [hreg, dig_eq s.cfg.B _ ((arrayOk_iff _ _).1 hok).2, hB, State.regVal, hB]
    have hfits : dig (u.reg rs) k < 2 ^ t.cfg.K :=
      hdig ▸ (Nat.mod_lt _ (B_pos t.cfg)).trans_le (B_le_two_pow_K t.cfg)
    refine ⟨u.setRes (dig (u.reg rs) k), ⟨hcfg, hinput, hst, hreg⟩, ?_⟩
    rw [driverCopyDigits_succ hu hsrc hks hkt hfits, setReg_reg_same, setReg_setReg, setReg_cfg, hdig, setdig_arr ht]

/-- ZERO and then the loop over k digits that both blocks have. -/
theorem zero_driverCopyDigits {rs : Reg} (hB : s.cfg.B = t.cfg.B) (hok : ArrayOk s.cfg (s.reg rs)) (rd : Reg) {k : Nat}
    (hs : k ≤ s.cfg.N) (ht : k ≤ t.cfg.N) :
    ∃ q, andThen (issue (.zero rd) t) (fun u => driverCopyDigits rs rd k ⟨s, u⟩) = .next q ∧
      q.right.reg rd = arr t.cfg (s.regVal rs % t.cfg.B ^ k) := by
  obtain ⟨u, -, hu⟩ := driverCopyDigits_eq hB hok rd hs ht
  have hzero : issue (.zero rd) t = .next (t.setReg rd (zeroArray t.cfg)) := issue_next rfl rfl
  exact ⟨_, (congrArg (andThen · _) hzero).trans hu, setReg_reg_same t rd _⟩

/-! ### The obligations -/

/-- Settles O55: the source's value is below B^N of the source, so the loop over its N digits keeps all of it. -/
theorem wideningKeepsValue : Obligations.WideningKeepsValue := by
  intro p rs rd hleft _ _ hM hN
  have hbase : p.left.cfg.B = p.right.cfg.B := congrArg (· + 1) hM
  obtain ⟨hl, hb⟩ := (arrayOk_iff _ _).1 (hleft rs)
  obtain ⟨q, hq, hreg⟩ := zero_driverCopyDigits hbase (hleft rs) rd le_rfl hN
  refine ⟨val_widen _ _ _, dig_widen (B_pos _) _ hb, q, hq, ?_⟩
  have hlt : p.left.regVal rs < p.left.cfg.B ^ p.left.cfg.N := val_lt_CAP (hleft rs)
  rw [hreg, ← hbase, Nat.mod_eq_of_lt hlt, widen_eq_arr (hl.trans_le hN) (hbase ▸ hb), State.regVal, hbase]

/-- Settles O56: the loop over the target's N digits keeps the source's value modulo B^N of the target. -/
theorem narrowingKeepsLowDigits : Obligations.NarrowingKeepsLowDigits := by
  intro p rs rd hleft _ _ hM hN
  have hbase : p.left.cfg.B = p.right.cfg.B := congrArg (· + 1) hM
  obtain ⟨q, hq, hreg⟩ := zero_driverCopyDigits hbase (hleft rs) rd hN le_rfl
  refine ⟨q, hq, hreg ▸ arr_ok _ _, ?_⟩
  rw [hreg, val_arr]
  exact Nat.mod_mod _ _

end Sys2Proof.Proofs
end

section
/-! The adder and subtractor (R63 to R68): their values modulo CAP, the carry and the borrow that they discard, the digit arrays
of an instance as the ring of residues modulo CAP (R65, R68, R73), and the two commands. -/

namespace Sys2Proof.Proofs

open Sys2Proof Sys2Proof.Machine Sys2Proof.Laws

variable {c : Config} {a b : DigitArray}

/-! ### The values -/

/-- The subtraction of naturals in `subArrays_eq` is a true one. -/
theorem val_le_add_CAP (hb : ArrayOk c b) (n : Nat) : val c.B b ≤ n + c.CAP :=
  (val_lt_CAP hb).le.trans (Nat.le_add_left _ _)

theorem val_addArrays (ha : ArrayOk c a) (hb : ArrayOk c b) :
    val c.B (addArrays c a b) = (val c.B a + val c.B b) % c.CAP := by
  rw [addArrays_eq ha hb, val_arr]

theorem val_subArrays (ha : ArrayOk c a) (hb : ArrayOk c b) :
    (val c.B (subArrays c a b) : Int) = ((val c.B a : Int) - val c.B b) % (c.CAP : Int) := by
  rw [subArrays_eq ha hb, val_arr, Int.natCast_mod, Nat.cast_sub (val_le_add_CAP hb _), Nat.cast_add,
    add_sub_right_comm, Int.add_emod_right]

/-! ### The discarded carry and borrow -/

theorem addWithCarry_carry_eq_ite (ha : ArrayOk c a) (hb : ArrayOk c b) :
    (addWithCarry c.B a b).2 = if c.CAP ≤ val c.B a + val c.B b then 1 else 0 := by
  have hA := val_lt_CAP ha
  have hB := val_lt_CAP hb
  rw [addWithCarry_carry ha hb]
  split
  case isTrue h => exact Nat.div_eq_of_lt_le (by omega) (by omega)
  case isFalse h => exact Nat.div_eq_of_lt (Nat.lt_of_not_le h)

/-- A carry or borrow that is the flag of a predicate. -/
theorem flag_spec {p : Prop} [Decidable p] {n : Nat} (h : n = if p then 1 else 0) : n ≤ 1 ∧ (n = 1 ↔ p) := by
  by_cases hp : p <;> simp [h, hp]

/-! ### Digit arrays as residues modulo CAP -/

/-- The digit array of a residue modulo CAP. -/
def ofResidue (c : Config) (r : ZMod c.CAP) : DigitArray := arr c r.val

theorem ofResidue_ok (c : Config) (r : ZMod c.CAP) : ArrayOk c (ofResidue c r) := arr_ok c r.val

theorem arr_eq_ofResidue (c : Config) (n : Nat) : arr c n = ofResidue c n := by
  rw [ofResidue, ZMod.val_natCast, arr_mod]

theorem natCast_val_ofResidue (c : Config) (r : ZMod c.CAP) : (val c.B (ofResidue c r) : ZMod c.CAP) = r := by
  have : NeZero c.CAP := ⟨(CAP_pos c).ne'⟩
  rw [ofResidue, val_arr, ZMod.natCast_mod, ZMod.natCast_zmod_val]

/-- Every digit array of the instance is that of a residue. -/
theorem exists_ofResidue (ha : ArrayOk c a) : ∃ r, ofResidue c r = a :=
  ⟨val c.B a, by rw [← arr_eq_ofResidue, arr_val ha]⟩

@[simp] theorem addArrays_ofResidue (r s : ZMod c.CAP) :
    addArrays c (ofResidue c r) (ofResidue c s) = ofResidue c (r + s) := by
  rw [addArrays_eq (ofResidue_ok c r) (ofResidue_ok c s), arr_eq_ofResidue, Nat.cast_add, natCast_val_ofResidue,
    natCast_val_ofResidue]

@[simp] theorem subArrays_ofResidue (r s : ZMod c.CAP) :
    subArrays c (ofResidue c r) (ofResidue c s) = ofResidue c (r - s) := by
  rw [subArrays_eq (ofResidue_ok c r) (ofResidue_ok c s), arr_eq_ofResidue,
    Nat.cast_sub (val_le_add_CAP (ofResidue_ok c s) _), Nat.cast_add, ZMod.natCast_self, add_zero, natCast_val_ofResidue,
    natCast_val_ofResidue]

@[simp] theorem mulArrays_ofResidue (r s : ZMod c.CAP) :
    mulArrays c (ofResidue c r) (ofResidue c s) = ofResidue c (r * s) := by
  rw [mulArrays_eq (ofResidue_ok c r) (ofResidue_ok c s), arr_eq_ofResidue, Nat.cast_mul, natCast_val_ofResidue,
    natCast_val_ofResidue]

theorem subArrays_addArrays_cancel (ha : ArrayOk c a) (hb : ArrayOk c b) : subArrays c (addArrays c a b) b = a := by
  obtain ⟨r, rfl⟩ := exists_ofResidue ha
  obtain ⟨s, rfl⟩ := exists_ofResidue hb
  rw [addArrays_ofResidue, subArrays_ofResidue, add_sub_cancel_right]

theorem addArrays_subArrays_cancel (ha : ArrayOk c a) (hb : ArrayOk c b) : addArrays c (subArrays c a b) b = a := by
  obtain ⟨r, rfl⟩ := exists_ofResidue ha
  obtain ⟨s, rfl⟩ := exists_ofResidue hb
  rw [subArrays_ofResidue, addArrays_ofResidue, sub_add_cancel]

/-! ### The obligations -/

/-- Settles O31: what is written is the adder's result on the two registers as they were. -/
theorem addWritesSumModuloCapacity : Obligations.AddWritesSumModuloCapacity := by
  refine fun s rd rs1 rs2 xa xb h => ⟨decode_formatC .., _, rfl, ?_, onlyReg_setReg rd _, ?_⟩ <;> rw [setReg_reg_same]
  · exact addArrays_ok (h rs1) (h rs2)
  · exact val_addArrays (h rs1) (h rs2)

/-- Settles O32: what is written is the subtractor's result on the two registers as they were. -/
theorem subWritesDifferenceModuloCapacity : Obligations.SubWritesDifferenceModuloCapacity := by
  refine fun s rd rs1 rs2 xa xb h => ⟨decode_formatC .., _, rfl, ?_, onlyReg_setReg rd _, ?_⟩ <;> rw [setReg_reg_same]
  · exact subArrays_ok (h rs1) (h rs2)
  · exact val_subArrays (h rs1) (h rs2)

/-- Settles O40: the first command leaves V[rs2] as it was, so the second cancels it. -/
theorem addAndSubUndoEachOther : Obligations.AddAndSubUndoEachOther := by
  intro s rd rs1 rs2 h hne
  refine ⟨⟨_, (issueAll_cons rfl rfl).trans (issueAll_cons rfl rfl), ?_⟩,
    ⟨_, (issueAll_cons rfl rfl).trans (issueAll_cons rfl rfl), ?_⟩⟩ <;>
    rw [setReg_reg_same, setReg_reg_same, setReg_reg_other _ _ _ _ hne.symm, setReg_cfg]
  · exact subArrays_addArrays_cancel (h rs1) (h rs2)
  · exact addArrays_subArrays_cancel (h rs1) (h rs2)

/-- Settles O42: on arrays of residues each law is one of the ring of residues modulo CAP. -/
theorem arraysFormCommutativeRing : Obligations.ArraysFormCommutativeRing := by
  intro c x y z hx hy hz
  obtain ⟨r, rfl⟩ := exists_ofResidue hx
  obtain ⟨s, rfl⟩ := exists_ofResidue hy
  obtain ⟨t, rfl⟩ := exists_ofResidue hz
  simp only [arr_eq_ofResidue, Nat.cast_zero, Nat.cast_one, addArrays_ofResidue, subArrays_ofResidue,
    mulArrays_ofResidue]
  refine ⟨?_, ?_, ?_, ?_, ?_, ?_, ?_, ?_, ?_, ?_, ?_⟩ <;> refine congrArg (ofResidue c) ?_
  · exact add_comm r s
  · exact add_assoc r s t
  · exact add_zero r
  · exact sub_self r
  · rw [zero_sub, sub_eq_add_neg]
  · exact mul_comm r s
  · exact mul_assoc r s t
  · exact mul_one r
  · exact mul_zero r
  · exact mul_add r s t
  · exact mul_sub r s t

/-- Settles O43: the carry is the quotient of the sum by CAP, and the borrow tells a difference below zero. -/
theorem discardedCarryAndBorrow : Obligations.DiscardedCarryAndBorrow := by
  intro c x y hx hy
  obtain ⟨hcarry, hoverflow⟩ := flag_spec (addWithCarry_carry_eq_ite hx hy)
  obtain ⟨hborrow, hunderflow⟩ := flag_spec (subWithBorrow_borrow hx hy)
  exact ⟨hcarry, hoverflow, hborrow, hunderflow⟩

end Sys2Proof.Proofs
end

section
/-! The schoolbook multiplier (R70 to R74): its value modulo CAP and the command; the multiply-accumulate term of a row stays
below B * B, so that the carry it leaves is one digit. -/

namespace Sys2Proof.Proofs

open Sys2Proof Sys2Proof.Machine Sys2Proof.Laws

variable {c : Config} {a b r : DigitArray}

/-! ### The value -/

theorem val_mulArrays (ha : ArrayOk c a) (hb : ArrayOk c b) :
    val c.B (mulArrays c a b) = val c.B a * val c.B b % c.CAP := by
  rw [mulArrays_eq ha hb, val_arr]

/-! ### The term and the carry -/

theorem dig_le_M (ha : ArrayOk c a) (p : Nat) : dig a p ≤ c.M :=
  (le_M_iff c _).2 (dig_lt ((arrayOk_iff c a).1 ha).2 (B_pos c) p)

/-- Four digits of at most M make a term of at most `M * M + 2 * M`, which is one less than `B * B` (R74). -/
theorem mulTerm_lt {y carry : Nat} (ha : ArrayOk c a) (hr : ArrayOk c r) (hy : y ≤ c.M) (hcarry : carry ≤ c.M) (i j : Nat) :
    mulTerm a y j r i carry < c.B * c.B := by
  have hprod : dig a i * y ≤ c.M * c.M := Nat.mul_le_mul (dig_le_M ha i) hy
  have hdig : dig r (i + j) ≤ c.M := dig_le_M hr (i + j)
  have hsq : c.B * c.B = c.M * c.M + 2 * c.M + 1 := by rw [Config.B]; ring
  rw [mulTerm]
  omega

theorem mulRow_succ_carry (B : Nat) (a : DigitArray) (y j : Nat) (r : DigitArray) (i : Nat) :
    (mulRow B a y j r (i + 1)).2 = mulTerm a y j (mulRow B a y j r i).1 i (mulRow B a y j r i).2 / B := rfl

/-- A row starts with carry 0, and each later carry is a term below `B * B` divided by B. -/
theorem mulRow_carry_le_M {y : Nat} (ha : ArrayOk c a) (hr : ArrayOk c r) (hy : y ≤ c.M) (i j : Nat) :
    (mulRow c.B a y j r i).2 ≤ c.M := by
  induction i with
  | zero => exact Nat.zero_le _
  | succ i ih =>
    rw [mulRow_succ_carry, le_M_iff]
    exact Nat.div_lt_of_lt_mul (mulTerm_lt ha (mulRow_ok a y j hr i) hy ih i j)

/-! ### The obligations -/

/-- Settles O33: what is written is the multiplier's result on the two registers as they were. -/
theorem mulWritesProductModuloCapacity : Obligations.MulWritesProductModuloCapacity := by
  refine fun s rd rs1 rs2 xa xb h => ⟨decode_formatC .., _, rfl, ?_, onlyReg_setReg rd _, ?_⟩ <;> rw [setReg_reg_same]
  · exact mulArrays_ok (h rs1)
  · exact val_mulArrays (h rs1) (h rs2)

/-- Settles O44: the row adds to a partial result whose digits are in range, by a digit of b. -/
theorem multiplierTermFitsTwoDigits : Obligations.MultiplierTermFitsTwoDigits := by
  intro c a b i j ha hb
  have hrows : ArrayOk c (mulRows c.B a b j) := mulRows_ok ha j
  have hcarry := mulRow_carry_le_M ha hrows (dig_le_M hb j) i j
  have hterm := mulTerm_lt ha (mulRow_ok a (dig b j) j hrows i) (dig_le_M hb j) hcarry i j
  exact ⟨hcarry, Nat.le_sub_one_of_lt hterm⟩

end Sys2Proof.Proofs
end

section
/-! The divider (R75 to R88): the values of its two results and the two commands; the identity of R87; what normalization does to
the divisor (R78, R79), and what the iterations leave of the working dividend (R84). -/

namespace Sys2Proof.Proofs

open Sys2Proof Sys2Proof.Machine Sys2Proof.Laws

variable {c : Config} {a b : DigitArray}

/-! ### The values -/

/-- The quotient of naturals by 0 is 0, as R88 has it. -/
theorem val_divArrays (ha : ArrayOk c a) (hb : ArrayOk c b) : val c.B (divArrays c a b) = val c.B a / val c.B b := by
  rw [divArrays_eq ha hb, val_arr, Nat.mod_eq_of_lt ((Nat.div_le_self _ _).trans_lt (val_lt_CAP ha))]

theorem val_modArrays_of_ne_zero (ha : ArrayOk c a) (hb : ArrayOk c b) (h : val c.B b ≠ 0) :
    val c.B (modArrays c a b) = val c.B a % val c.B b := by
  rw [modArrays_eq ha hb, if_neg h, val_arr, Nat.mod_eq_of_lt ((Nat.mod_le _ _).trans_lt (val_lt_CAP ha))]

theorem val_modArrays_of_zero (ha : ArrayOk c a) (hb : ArrayOk c b) (h : val c.B b = 0) :
    val c.B (modArrays c a b) = 0 := by
  rw [modArrays_eq ha hb, if_pos h, val_arr, Nat.zero_mod]

/-! ### The identity of R87 -/

theorem val_mulArrays_divArrays (ha : ArrayOk c a) (hb : ArrayOk c b) :
    val c.B (mulArrays c (divArrays c a b) b) = val c.B a / val c.B b * val c.B b := by
  rw [val_mulArrays (divArrays_ok ha hb) hb, val_divArrays ha hb,
    Nat.mod_eq_of_lt ((Nat.div_mul_le_self _ _).trans_lt (val_lt_CAP ha))]

theorem quotient_mul_divisor_add_remainder (ha : ArrayOk c a) (hb : ArrayOk c b) (h : val c.B b ≠ 0) :
    addArrays c (mulArrays c (divArrays c a b) b) (modArrays c a b) = a := by
  rw [addArrays_eq (mulArrays_ok (divArrays_ok ha hb)) (modArrays_ok ha hb), val_mulArrays_divArrays ha hb,
    val_modArrays_of_ne_zero ha hb h, Nat.div_add_mod', arr_val ha]

/-! ### Normalization -/

/-- Knuth's bound for `f = B div (lead + 1)`: a leading digit times its factor is at least half the base (R78). -/
theorem half_le_lead_mul_scaleFactor {B lead : Nat} (h1 : 0 < lead) (h2 : lead < B) :
    B / 2 ≤ lead * scaleFactor B lead := by
  have hf : 0 < scaleFactor B lead := (scaleFactor_bounds h1 h2).1
  have hlt : B < (lead + 1) * (scaleFactor B lead + 1) := Nat.lt_mul_div_succ _ lead.succ_pos
  have hexpand : (lead + 1) * (scaleFactor B lead + 1) = lead * scaleFactor B lead + (lead + scaleFactor B lead) + 1 := by
    ring
  have hsum : lead + scaleFactor B lead - 1 ≤ lead * scaleFactor B lead := Nat.add_sub_one_le_mul h1.ne' hf.ne'
  omega

/-- The normalization factor of a divisor: that of its leading digit (R78). -/
def normFactor (c : Config) (b : DigitArray) : Nat := scaleFactor c.B (dig b (msd b - 1))

/-- The scaled divisor, least significant digit first, before it is cut to its n digits (R79). -/
def scaledDivisor (c : Config) (b : DigitArray) : List Nat := scale c.B (normFactor c b) b.reverse

/-- The scaled divisor as algorithmD and the loop take it: its n digits (R79). -/
def normDivisor (c : Config) (b : DigitArray) : List Nat := (scaledDivisor c b).take (msd b)

theorem normDivisor_length (c : Config) (b : DigitArray) : (normDivisor c b).length = msd b := by
  have := msd_le b
  rw [normDivisor, scaledDivisor, List.length_take, scale_length, List.length_reverse]
  omega

theorem msd_pos (hb : ArrayOk c b) (hpos : 0 < val c.B b) : 0 < msd b :=
  Nat.pos_of_ne_zero fun h => hpos.ne' ((msd_eq_zero_iff (B_pos c) ((arrayOk_iff c b).1 hb).2).1 h)

section
variable (hb : ArrayOk c b) (hpos : 0 < val c.B b)
include hb hpos

theorem lead_pos_lt : 0 < dig b (msd b - 1) ∧ dig b (msd b - 1) < c.B :=
  have hbelow := ((arrayOk_iff c b).1 hb).2
  ⟨(lead_bounds (B_pos c) hbelow (msd_pos hb hpos)).1, dig_lt hbelow (B_pos c) _⟩

theorem normFactor_pos_lt : 0 < normFactor c b ∧ normFactor c b < c.B :=
  have ⟨hlead, hleadB⟩ := lead_pos_lt hb hpos
  have ⟨hf, hfB, _⟩ := scaleFactor_bounds hlead hleadB
  ⟨hf, hfB⟩

/-- The scaled divisor still has n digits: `val b < (lead + 1) * B^(n-1)` and `(lead + 1) * f ≤ B`. -/
theorem val_mul_normFactor_lt : val c.B b * normFactor c b < c.B ^ msd b := by
  obtain ⟨hlead, hleadB⟩ := lead_pos_lt hb hpos
  obtain ⟨hf, -, hfl⟩ := scaleFactor_bounds hlead hleadB
  have hval := (lead_bounds (B_pos c) ((arrayOk_iff c b).1 hb).2 (msd_pos hb hpos)).2
  calc val c.B b * normFactor c b
      < (dig b (msd b - 1) + 1) * c.B ^ (msd b - 1) * normFactor c b := Nat.mul_lt_mul_of_pos_right hval hf
    _ = (dig b (msd b - 1) + 1) * normFactor c b * c.B ^ (msd b - 1) := Nat.mul_right_comm _ _ _
    _ ≤ c.B * c.B ^ (msd b - 1) := Nat.mul_le_mul_right _ hfl
    _ = c.B ^ msd b := mul_pow_sub_one (msd_pos hb hpos).ne' _

theorem scaledDivisor_below : Below c.B (scaledDivisor c b) :=
  scale_below (normFactor_pos_lt hb hpos).2 ((arrayOk_iff c b).1 hb).2.reverse

theorem scaledDivisor_getD (p : Nat) :
    (scaledDivisor c b).getD p 0 = val c.B b * normFactor c b / c.B ^ p % c.B := by
  rw [getD_eq (scaledDivisor_below hb hpos), scaledDivisor, scale_value, ← val_eq_ofDigits]

theorem scaledDivisor_getD_high {p : Nat} (hp : msd b ≤ p) : (scaledDivisor c b).getD p 0 = 0 := by
  have hlt := (val_mul_normFactor_lt hb hpos).trans_le (Nat.pow_le_pow_right (B_pos c) hp)
  rw [scaledDivisor_getD hb hpos, Nat.div_eq_of_lt hlt, Nat.zero_mod]

/-- The digits below the leading one can only add to `lead * f`. -/
theorem half_le_scaledDivisor_lead : c.B / 2 ≤ (scaledDivisor c b).getD (msd b - 1) 0 := by
  obtain ⟨hlead, hleadB⟩ := lead_pos_lt hb hpos
  have hlt : val c.B b * normFactor c b / c.B ^ (msd b - 1) < c.B := by
    apply Nat.div_lt_of_lt_mul
    rw [pow_sub_one_mul (msd_pos hb hpos).ne']
    exact val_mul_normFactor_lt hb hpos
  have hdig : dig b (msd b - 1) ≤ val c.B b / c.B ^ (msd b - 1) :=
    (dig_eq c.B b ((arrayOk_iff c b).1 hb).2 _).trans_le (Nat.mod_le _ _)
  rw [scaledDivisor_getD hb hpos, Nat.mod_eq_of_lt hlt]
  calc c.B / 2 ≤ dig b (msd b - 1) * normFactor c b := half_le_lead_mul_scaleFactor hlead hleadB
    _ ≤ val c.B b / c.B ^ (msd b - 1) * normFactor c b := Nat.mul_le_mul_right _ hdig
    _ ≤ val c.B b * normFactor c b / c.B ^ (msd b - 1) := by
      rw [mul_comm, mul_comm (val c.B b)]
      exact Nat.mul_div_le_mul_div_assoc _ _ _

/-! ### The divisor of the loop -/

theorem normDivisor_below : Below c.B (normDivisor c b) :=
  fun z hz => scaledDivisor_below hb hpos z (List.mem_of_mem_take hz)

theorem ofDigits_normDivisor : Nat.ofDigits c.B (normDivisor c b) = val c.B b * normFactor c b := by
  rw [normDivisor, ← Nat.ofDigits_mod_pow_eq_ofDigits_take _ (B_pos c) _ (scaledDivisor_below hb hpos), scaledDivisor,
    scale_value, ← val_eq_ofDigits, Nat.mod_eq_of_lt (val_mul_normFactor_lt hb hpos)]

theorem normDivisor_lead_pos : 0 < (normDivisor c b).getD ((normDivisor c b).length - 1) 0 := by
  have hn := msd_pos hb hpos
  have hhalf : 0 < c.B / 2 := Nat.div_pos (two_le_B c) two_pos
  have htop : (normDivisor c b).getD (msd b - 1) 0 = (scaledDivisor c b).getD (msd b - 1) 0 := by
    simp [normDivisor, List.getD_eq_getElem?_getD, hn]
  rw [normDivisor_length, htop]
  exact hhalf.trans_le (half_le_scaledDivisor_lead hb hpos)

end

/-! ### The loop on the scaled operands -/

theorem msd_le_msd (ha : ArrayOk c a) (hb : ArrayOk c b) (hpos : 0 < val c.B b) (hle : val c.B b ≤ val c.B a) :
    msd b ≤ msd a := by
  have hpow : c.B ^ (msd b - 1) < c.B ^ msd a :=
    calc c.B ^ (msd b - 1) ≤ val c.B b := pow_msd_le_val (B_pos c) (msd_pos hb hpos)
      _ ≤ val c.B a := hle
      _ < c.B ^ msd a := val_lt_pow_msd (B_pos c) ((arrayOk_iff c a).1 ha).2
  have := (Nat.pow_lt_pow_iff_right (two_le_B c)).1 hpow
  omega

/-- `msd a - msd b + 1` quotient digits are enough. -/
theorem val_lt_val_mul_pow (ha : ArrayOk c a) (hb : ArrayOk c b) (hpos : 0 < val c.B b) (hle : val c.B b ≤ val c.B a) :
    val c.B a < val c.B b * c.B ^ (msd a - msd b + 1) := by
  have hn := msd_pos hb hpos
  have hnm := msd_le_msd ha hb hpos hle
  calc val c.B a < c.B ^ msd a := val_lt_pow_msd (B_pos c) ((arrayOk_iff c a).1 ha).2
    _ = c.B ^ (msd b - 1) * c.B ^ (msd a - msd b + 1) := by rw [← pow_add]; congr 1; omega
    _ ≤ val c.B b * c.B ^ (msd a - msd b + 1) := Nat.mul_le_mul_right _ (pow_msd_le_val (B_pos c) hn)

/-- The loop divides `f * a` by `f * b`, so what it leaves is `f` times the remainder of a by b (R84). -/
theorem ofDigits_divLoop_eq (ha : ArrayOk c a) (hb : ArrayOk c b) (hpos : 0 < val c.B b) (hle : val c.B b ≤ val c.B a) :
    Nat.ofDigits c.B (divLoop c.B (normDivisor c b) (msd a - msd b + 1) (scale c.B (normFactor c b) a.reverse)).2 =
      normFactor c b * (val c.B a % val c.B b) := by
  obtain ⟨hf, hfB⟩ := normFactor_pos_lt hb hpos
  have hU : Nat.ofDigits c.B (scale c.B (normFactor c b) a.reverse) = val c.B a * normFactor c b := by
    rw [scale_value, ← val_eq_ofDigits]
  have hD := ofDigits_normDivisor hb hpos
  have hlen : msd a - msd b + 1 + (normDivisor c b).length ≤ (scale c.B (normFactor c b) a.reverse).length := by
    have := msd_le_msd ha hb hpos hle
    have := msd_le a
    rw [normDivisor_length, scale_length, List.length_reverse]
    omega
  have hbound : Nat.ofDigits c.B (scale c.B (normFactor c b) a.reverse) <
      Nat.ofDigits c.B (normDivisor c b) * c.B ^ (msd a - msd b + 1) := by
    rw [hU, hD, Nat.mul_right_comm]
    exact Nat.mul_lt_mul_of_pos_right (val_lt_val_mul_pow ha hb hpos hle) hf
  obtain ⟨-, -, hlt, hdiv⟩ := divLoop_spec _ _ (two_le_B c) (normDivisor_below hb hpos)
    (normDivisor_length c b ▸ msd_pos hb hpos) (normDivisor_lead_pos hb hpos)
    (scale_below hfB ((arrayOk_iff c a).1 ha).2.reverse) hlen hbound
  rw [hD] at hlt
  rw [hU, hD] at hdiv
  rw [mul_comm (normFactor c b), ← Nat.mul_mod_mul_right, ← hdiv, Nat.mul_add_mod_self_right, Nat.mod_eq_of_lt hlt]

/-! ### The obligations -/

/-- Settles O34: the quotient written is that of the naturals, which R75's two inequalities single out. -/
theorem divWritesFloorQuotient : Obligations.DivWritesFloorQuotient := by
  refine fun s rd rs1 rs2 xa xb h => ⟨decode_formatC .., _, rfl, ?_, onlyReg_setReg rd _, ?_, ?_⟩ <;>
    rw [setReg_reg_same]
  · exact divArrays_ok (h rs1) (h rs2)
  · intro hne
    rw [val_divArrays (h rs1) (h rs2)]
    refine ⟨Nat.div_mul_le_self _ _, ?_⟩
    rw [mul_comm]
    exact Nat.lt_mul_div_succ _ (Nat.pos_of_ne_zero hne)
  · intro (hzero : val s.cfg.B (s.reg rs2) = 0)
    rw [val_divArrays (h rs1) (h rs2), hzero, Nat.div_zero]

/-- Settles O35: the remainder written is that of the naturals, but 0 for a zero divisor. -/
theorem modWritesRemainder : Obligations.ModWritesRemainder := by
  refine fun s rd rs1 rs2 xa xb h => ⟨decode_formatC .., _, rfl, ?_, onlyReg_setReg rd _, ?_⟩ <;> rw [setReg_reg_same]
  · exact modArrays_ok (h rs1) (h rs2)
  · exact ⟨val_modArrays_of_ne_zero (h rs1) (h rs2), val_modArrays_of_zero (h rs1) (h rs2)⟩

/-- Settles O41: MOD and MUL still see V[b], and ADD the remainder, since q and r are other registers. -/
theorem divisionIdentity : Obligations.DivisionIdentity := by
  intro s q r a b h hqr hqa hqb _ hrb hne
  refine ⟨_, (issueAll_cons rfl rfl).trans <| (issueAll_cons rfl rfl).trans <| (issueAll_cons rfl rfl).trans <|
    issueAll_cons rfl rfl, ?_, ?_⟩
  · simp only [setReg_reg, setReg_cfg, if_true, hqr, hqr.symm, hqa.symm, hqb.symm, hrb.symm, if_false]
    exact quotient_mul_divisor_add_remainder (h a) (h b) hne
  · simp only [State.regVal, setReg_reg, setReg_cfg, if_true, hqr.symm, hqa.symm, hqb.symm, if_false]
    rw [val_modArrays_of_ne_zero (h a) (h b) hne]
    exact Nat.mod_lt _ (Nat.pos_of_ne_zero hne)

/-- Settles O45: the scaled divisor is below `B^n` with a leading digit of at least `lead * f`, and the loop divides the scaled
operands. -/
theorem algorithmDNormalizesAndLeavesScaledRemainder : Obligations.AlgorithmDNormalizesAndLeavesScaledRemainder := by
  rintro c a b f U D ha hb h2 hlt rfl rfl rfl
  have hpos : 0 < val c.B b := two_pos.trans_le h2
  exact ⟨fun _ hp => scaledDivisor_getD_high hb hpos hp, half_le_scaledDivisor_lead hb hpos,
    ofDigits_divLoop_eq ha hb hpos hlt.le⟩

end Sys2Proof.Proofs
end

section
/-! Exponentiation and comparison (R90 to R96): the power and the one configuration in which POW is refused; the comparison as the
order of the values, and the status bits and relational operators that a CMP leaves. -/

namespace Sys2Proof.Proofs

open Sys2Proof Sys2Proof.Machine Sys2Proof.Laws

variable {c : Config} {s : State} {a b : DigitArray}

/-! ### The power -/

theorem val_powArrays (hc : c.CAP ≠ 2) (ha : ArrayOk c a) (hb : ArrayOk c b) :
    val c.B (powArrays c a b) = val c.B a ^ val c.B b % c.CAP := by
  rw [powArrays_eq hc ha hb, val_arr]

/-- CAP is the power `(M + 1) ^ N`, and a prime is a power of itself with exponent 1 only. -/
theorem CAP_eq_two_iff (c : Config) : c.CAP = 2 ↔ c.N = 1 ∧ c.M = 1 := by
  rw [Config.CAP, Nat.prime_two.pow_eq_iff, Config.B, Nat.succ_inj, and_comm]

theorem exists_pow_of_refusedIn {i : Instr} (h : refusedIn c i) : ∃ rd rs1 rs2, i = .pow rd rs1 rs2 := by
  cases i with
  | pow rd rs1 rs2 => exact ⟨rd, rs1, rs2, rfl⟩
  | _ => exact h.elim

/-! ### The comparison (R94) -/

theorem cmpArrays_lt_iff (ha : ArrayOk c a) (hb : ArrayOk c b) : cmpArrays a b = .lt ↔ val c.B a < val c.B b := by
  rw [cmp_eq ha hb, compare_lt_iff_lt]

theorem cmpArrays_gt_iff (ha : ArrayOk c a) (hb : ArrayOk c b) : cmpArrays a b = .gt ↔ val c.B b < val c.B a := by
  rw [cmp_eq ha hb, compare_gt_iff_gt]

theorem val_eq_iff (ha : ArrayOk c a) (hb : ArrayOk c b) : val c.B a = val c.B b ↔ a = b :=
  ⟨array_ext ha hb, congrArg (val c.B)⟩

theorem cmpArrays_eq_iff (ha : ArrayOk c a) (hb : ArrayOk c b) : cmpArrays a b = .eq ↔ a = b := by
  rw [cmp_eq ha hb, compare_eq_iff_eq, val_eq_iff ha hb]

/-! ### The status bits (R95) -/

theorem onlyCompareBits_setCompare (o : Ordering) : OnlyCompareBits s (s.setCompare o) :=
  ⟨rfl, rfl, rfl, (withCompare_bits o s.st).2.2.2, fun _ => rfl⟩

/-- CMP writes the order of the two values. -/
theorem exec_cmp (h : s.DigitsOk) (rs1 rs2 : Reg) :
    exec (.cmp rs1 rs2) s = .next (s.setCompare (compare (s.regVal rs1) (s.regVal rs2))) := by
  rw [State.regVal, State.regVal, ← cmp_eq (h rs1) (h rs2)]
  rfl

/-- The bits after a comparison of two numbers are their relations. -/
theorem withCompare_compare_bits (st : StatusWord) (m n : Nat) :
    (stLT (withCompare st (compare m n)) = true ↔ m < n) ∧ (stEQ (withCompare st (compare m n)) = true ↔ m = n) ∧
    (stGT (withCompare st (compare m n)) = true ↔ n < m) := by
  obtain ⟨hlt, heq, hgt, -⟩ := withCompare_bits (compare m n) st
  rw [hlt, heq, hgt, beq_iff_eq, beq_iff_eq, beq_iff_eq]
  exact ⟨compare_lt_iff_lt, compare_eq_iff_eq, compare_gt_iff_gt⟩

/-! ### The obligations -/

/-- Settles O36: CAP is not 2, so POW runs, and what is written is the power of the two registers as they were. -/
theorem powWritesPowerModuloCapacity : Obligations.PowWritesPowerModuloCapacity := by
  intro s rd rs1 rs2 xa xb h h3
  have hc : s.cfg.CAP ≠ 2 := by omega
  refine ⟨decode_formatC .., _, execPow_runs hc, ?_, onlyReg_setReg rd _, ?_⟩ <;> rw [setReg_reg_same]
  · exact powArrays_ok hc (h rs1) (h rs2)
  · exact val_powArrays hc (h rs1) (h rs2)

/-- Settles O37: the refusal of POW is the only one of `exec`. -/
theorem powRefusedWhenTwoNotRepresentable : Obligations.PowRefusedWhenTwoNotRepresentable := by
  refine fun s rd rs1 rs2 => ⟨CAP_eq_two_iff s.cfg, execPow_refused, fun i _ hi => ⟨_, exec_runs fun hr => ?_⟩⟩
  obtain ⟨d, a, b, rfl⟩ := exists_pow_of_refusedIn hr
  exact hi d a b rfl

/-- Settles O38: the bits are those of the order of the values, and equal values have equal digits. -/
theorem cmpSetsOneStatusBit : Obligations.CmpSetsOneStatusBit := by
  intro s rs1 rs2 xa xb h
  obtain ⟨hlt, heq, hgt⟩ := withCompare_compare_bits s.st (s.regVal rs1) (s.regVal rs2)
  have hval : s.regVal rs1 = s.regVal rs2 ↔ s.reg rs1 = s.reg rs2 := val_eq_iff (h rs1) (h rs2)
  exact ⟨decode_formatC .., _, exec_cmp h rs1 rs2, onlyCompareBits_setCompare _, hlt, heq.trans hval, hgt, hval.symm⟩

/-- Settles O46: the comparison is the order of the values, and a value has one array. -/
theorem comparisonIsStrongTotalOrder : Obligations.ComparisonIsStrongTotalOrder := by
  intro c x y z hx hy hz
  rw [cmpArrays_lt_iff hx hy, cmpArrays_gt_iff hy hx, cmpArrays_lt_iff hy hz, cmpArrays_lt_iff hx hz]
  exact ⟨Iff.rfl, cmpArrays_eq_iff hx hy, Nat.lt_trans, Iff.rfl⟩

/-- Settles O47: each operator is one bit or the disjunction of two, and so is its relation of the values. -/
theorem relationalOperatorsReadFromStatus : Obligations.RelationalOperatorsReadFromStatus := by
  intro s rs1 rs2 h
  obtain ⟨hlt, heq, hgt⟩ := withCompare_compare_bits s.st (s.regVal rs1) (s.regVal rs2)
  refine ⟨_, exec_cmp h rs1 rs2, heq, ?_, hlt, ?_, hgt, ?_⟩
  · rw [relNe, Bool.or_eq_true, setCompare_st, hlt, hgt, ne_iff_lt_or_gt]
  · rw [relLe, Bool.or_eq_true, setCompare_st, hlt, heq, le_iff_lt_or_eq]
  · rw [relGe, Bool.or_eq_true, setCompare_st, hgt, heq, le_iff_lt_or_eq, eq_comm]

end Sys2Proof.Proofs
end

section
/-! The signed wrapper (R100 to R112): the number that a canonical value represents determines it, so the laws of the operations
are those of the integers; and the host's command sequences, whose MSD is the zero test of `canon`. -/

namespace Sys2Proof.Proofs

open Sys2Proof Sys2Proof.Machine Sys2Proof.Laws

variable {c : Config} {a b m : DigitArray} {g g' : Sign} {x y : Signed}

/-! ### The number represented (R100, R101) -/

@[simp] theorem toInt_pos (c : Config) (m : DigitArray) : (Signed.mk .pos m).toInt c = val c.B m := rfl

@[simp] theorem toInt_neg (c : Config) (m : DigitArray) : (Signed.mk .neg m).toInt c = -(val c.B m : Int) := rfl

theorem natAbs_toInt (c : Config) (x : Signed) : (x.toInt c).natAbs = val c.B x.mag := by
  obtain ⟨g, m⟩ := x
  cases g <;> simp

theorem toInt_eq_zero_iff : x.toInt c = 0 ↔ val c.B x.mag = 0 := by
  rw [← Int.natAbs_eq_zero, natAbs_toInt]

theorem toInt_of_sign_ne (h : g ≠ g') (m : DigitArray) : (Signed.mk g m).toInt c = -(Signed.mk g' m).toInt c := by
  cases g <;> cases g' <;> simp at h ⊢

theorem sign_ext (h : g = .neg ↔ g' = .neg) : g = g' := by
  cases g <;> cases g' <;> simp at h ⊢

/-- Zero has one sign, so a number has one canonical value. -/
theorem toInt_inj (hx : x.Canonical c) (hy : y.Canonical c) : x.toInt c = y.toInt c ↔ x = y := by
  refine ⟨fun h => ?_, congrArg _⟩
  have hmag : x.mag = y.mag := array_ext hx.1 hy.1 (by rw [← natAbs_toInt, h, natAbs_toInt])
  have hsign : x.sign = .neg ↔ y.sign = .neg := by
    rw [Signed.Canonical.neg_iff hx, Signed.Canonical.neg_iff hy, h]
  obtain ⟨g, m⟩ := x
  obtain ⟨g', m'⟩ := y
  exact congrArg₂ Signed.mk (sign_ext hsign) hmag

theorem canon_of_pos (hm : ArrayOk c m) (h : 0 < val c.B m) (g : Sign) : canon c g m = ⟨g, m⟩ :=
  if_neg (mt (isZero_iff hm).1 h.ne')

theorem canon_of_zero (hm : ArrayOk c m) (h : val c.B m = 0) (g : Sign) : canon c g m = ⟨.pos, m⟩ :=
  if_pos ((isZero_iff hm).2 h)

theorem canonical_zero (c : Config) : (Signed.mk .pos (zeroArray c)).Canonical c :=
  canon_of_zero (zeroArray_ok c) (val_zeroArray c) .pos ▸ canonical_canon (zeroArray_ok c)

/-! ### Addition and subtraction (R103 to R105) -/

theorem toInt_addArrays (ha : ArrayOk c a) (hb : ArrayOk c b) (g : Sign)
    (h : ((Signed.mk g a).toInt c + (Signed.mk g b).toInt c).natAbs < c.CAP) :
    (Signed.mk g (addArrays c a b)).toInt c = (Signed.mk g a).toInt c + (Signed.mk g b).toInt c := by
  have hlt : val c.B a + val c.B b < c.CAP := by
    cases g <;> simp only [toInt_pos, toInt_neg] at h <;> omega
  have hval : val c.B (addArrays c a b) = val c.B a + val c.B b := (val_addArrays ha hb).trans (Nat.mod_eq_of_lt hlt)
  cases g <;> simp [hval, add_comm]

/-- The smaller magnitude subtracted from the larger. -/
theorem canonical_subArrays (ha : ArrayOk c a) (hb : ArrayOk c b) (h : val c.B b < val c.B a) (g : Sign) :
    (Signed.mk g (subArrays c a b)).Canonical c ∧
      (Signed.mk g (subArrays c a b)).toInt c = (Signed.mk g a).toInt c - (Signed.mk g b).toInt c := by
  have hok : ArrayOk c (subArrays c a b) := subArrays_ok ha hb
  have hval : (val c.B (subArrays c a b) : Int) = val c.B a - val c.B b := by
    rw [subArrays_of_le ha hb h.le, val_arr, Nat.mod_eq_of_lt ((Nat.sub_le _ _).trans_lt (val_lt_CAP ha)),
      Nat.cast_sub h.le]
  refine ⟨canon_of_pos hok (by omega) g ▸ canonical_canon hok, ?_⟩
  cases g
  case pos => exact hval
  case neg => rw [toInt_neg, hval, neg_sub', toInt_neg, toInt_neg]

/-- With differing signs the magnitude never wraps. -/
theorem sadd_of_sign_ne (hx : ArrayOk c x.mag) (hy : ArrayOk c y.mag) (h : x.sign ≠ y.sign) :
    (sadd c x y).Canonical c ∧ (sadd c x y).toInt c = x.toInt c + y.toInt c := by
  rw [sadd, if_neg h, cmp_eq hx hy]
  rcases lt_trichotomy (val c.B x.mag) (val c.B y.mag) with hlt | heq | hgt
  · obtain ⟨hcanon, hval⟩ := canonical_subArrays hy hx hlt y.sign
    rw [compare_lt_iff_lt.2 hlt]
    exact ⟨hcanon, by rw [hval, toInt_of_sign_ne h.symm x.mag, sub_neg_eq_add, add_comm]⟩
  · rw [compare_eq_iff_eq.2 heq]
    refine ⟨canonical_zero c, ?_⟩
    rw [toInt_pos, val_zeroArray, Nat.cast_zero, eq_comm, add_eq_zero_iff_eq_neg, ← toInt_of_sign_ne h,
      ← array_ext hx hy heq]
  · obtain ⟨hcanon, hval⟩ := canonical_subArrays hx hy hgt x.sign
    rw [compare_gt_iff_gt.2 hgt]
    exact ⟨hcanon, by rw [hval, toInt_of_sign_ne h y.mag, sub_neg_eq_add]⟩

theorem canonical_sadd (hx : ArrayOk c x.mag) (hy : ArrayOk c y.mag) : (sadd c x y).Canonical c := by
  by_cases h : x.sign = y.sign
  · rw [sadd, if_pos h]
    exact canonical_canon (addArrays_ok hx hy)
  · exact (sadd_of_sign_ne hx hy h).1

theorem toInt_sadd (hx : ArrayOk c x.mag) (hy : ArrayOk c y.mag) (hfit : (x.toInt c + y.toInt c).natAbs < c.CAP) :
    (sadd c x y).toInt c = x.toInt c + y.toInt c := by
  by_cases h : x.sign = y.sign
  · obtain ⟨g, my⟩ := y
    obtain rfl : x.sign = g := h
    rw [sadd, if_pos rfl, toInt_canon (addArrays_ok hx hy)]
    exact toInt_addArrays hx hy x.sign hfit
  · exact (sadd_of_sign_ne hx hy h).2

theorem sneg_eq_canon (hx : x.Canonical c) : sneg c x = canon c x.sign.flip x.mag := by
  rw [sneg]
  split
  case isTrue hz => rw [canon, if_pos hz, ← hx.2, canon, if_pos hz]
  case isFalse hz => rw [canon, if_neg hz]

theorem canonical_sneg (hx : x.Canonical c) : (sneg c x).Canonical c :=
  sneg_eq_canon hx ▸ canonical_canon hx.1

theorem toInt_sneg (hx : x.Canonical c) : (sneg c x).toInt c = -x.toInt c := by
  rw [sneg_eq_canon hx, toInt_canon hx.1]
  exact toInt_of_sign_ne (by cases x.sign <;> decide) x.mag

/-! ### Product, quotient, remainder and comparison (R106 to R108) -/

theorem toInt_smul (hx : ArrayOk c x.mag) (hy : ArrayOk c y.mag) (hfit : (x.toInt c * y.toInt c).natAbs < c.CAP) :
    (smul c x y).toInt c = x.toInt c * y.toInt c := by
  have hval : val c.B (mulArrays c x.mag y.mag) = val c.B x.mag * val c.B y.mag := by
    rw [Int.natAbs_mul, natAbs_toInt, natAbs_toInt] at hfit
    rw [val_mulArrays hx hy, Nat.mod_eq_of_lt hfit]
  rw [smul, toInt_canon (mulArrays_ok hx)]
  obtain ⟨g, m⟩ := x
  obtain ⟨g', m'⟩ := y
  cases g <;> cases g' <;> simp [productSign, hval]

/-- A quotient by zero is zero on both sides. -/
theorem toInt_sdiv (hx : ArrayOk c x.mag) (hy : ArrayOk c y.mag) :
    (sdiv c x y).toInt c = (x.toInt c).tdiv (y.toInt c) := by
  have hval := val_divArrays hx hy
  rw [sdiv, toInt_canon (divArrays_ok hx hy)]
  obtain ⟨g, m⟩ := x
  obtain ⟨g', m'⟩ := y
  cases g <;> cases g' <;> simp [productSign, hval, Int.tdiv_eq_ediv_of_nonneg]

theorem toInt_smod (hx : ArrayOk c x.mag) (hy : ArrayOk c y.mag) (h : y.toInt c ≠ 0) :
    (smod c x y).toInt c = (x.toInt c).tmod (y.toInt c) := by
  have hval := val_modArrays_of_ne_zero hx hy (mt toInt_eq_zero_iff.2 h)
  rw [smod, toInt_canon (modArrays_ok hx hy)]
  obtain ⟨g, m⟩ := x
  obtain ⟨g', m'⟩ := y
  cases g <;> cases g' <;> simp [hval, Int.tmod_eq_emod_of_nonneg]

theorem toInt_smod_zero (hx : ArrayOk c x.mag) (hy : ArrayOk c y.mag) (h : y.toInt c = 0) : (smod c x y).toInt c = 0 := by
  rw [smod, toInt_canon (modArrays_ok hx hy), toInt_eq_zero_iff]
  exact val_modArrays_of_zero hx hy (toInt_eq_zero_iff.1 h)

theorem compare_natCast (m n : Nat) : compare (m : Int) n = compare m n := by
  rw [← cmp_eq_compare, ← cmp_eq_compare]
  exact Nat.strictMono_cast.cmp_map_eq m n

theorem compare_neg (i j : Int) : compare (-i) (-j) = compare j i := by
  rw [← cmp_eq_compare, ← cmp_eq_compare]
  exact strictMono_id.neg.cmp_map_eq i j

theorem scmp_eq (hx : x.Canonical c) (hy : y.Canonical c) : scmp x y = compare (x.toInt c) (y.toInt c) := by
  have hxneg := Signed.Canonical.neg_iff hx
  have hyneg := Signed.Canonical.neg_iff hy
  have hmag := cmp_eq hx.1 hy.1
  have hmag' := cmp_eq hy.1 hx.1
  obtain ⟨g, m⟩ := x
  obtain ⟨g', m'⟩ := y
  cases g <;> cases g'
  case pos.pos => exact hmag.trans (compare_natCast _ _).symm
  case neg.neg => exact hmag'.trans ((compare_natCast _ _).symm.trans (compare_neg _ _).symm)
  case neg.pos => exact (compare_lt_iff_lt.2 ((hxneg.1 rfl).trans_le (Int.natCast_nonneg _))).symm
  case pos.neg => exact (compare_gt_iff_gt.2 ((hyneg.1 rfl).trans_le (Int.natCast_nonneg _))).symm

theorem productSign_comm (g g' : Sign) : productSign g g' = productSign g' g := by
  cases g <;> cases g' <;> rfl

theorem signedMul_comm (hx : ArrayOk c x.mag) (hy : ArrayOk c y.mag) : smul c x y = smul c y x := by
  rw [smul, smul, productSign_comm, mulArrays_eq hx hy, mulArrays_eq hy hx, mul_comm]

/-! ### Native conversion (R109) -/

theorem fromSigned_eq {z : Int} (hz : mostNegative c < z) (hfit : z.natAbs < c.CAP) :
    fromSigned c z = canon c (if z < 0 then .neg else .pos) (arr c z.natAbs) := by
  simp only [fromSigned, if_neg hz.ne', Nat.mod_eq_of_lt hfit]

/-- Two's complement is the residue of the integer. -/
theorem toSignedWord_eq (c : Config) (x : Signed) : toSignedWord c x = BitVec.ofInt c.K (x.toInt c) := by
  obtain ⟨g, m⟩ := x
  cases g
  case pos => exact (BitVec.ofInt_natCast _ _).symm
  case neg => rw [toInt_neg, BitVec.ofInt_neg, BitVec.ofInt_natCast, toSignedWord]

/-! ### The host's command sequences (R112) -/

variable {s : State} {i : Instr} {d : DigitArray}

/-- The MSD of a register of the instance is zero for the value zero only. -/
theorem driverCanon_eq (h : s.DigitsOk) (rd : Reg) (g : Sign) :
    driverCanon rd g s = .next ((canon s.cfg g (s.reg rd)).sign, s.setRes (msd (s.reg rd))) := by
  have hres : (s.setRes (msd (s.reg rd))).res = 0 ↔ isZero s.cfg (s.reg rd) = true := by
    rw [setRes_res, Nat.mod_eq_of_lt (msd_lt_two_pow_K h rd), isZero_iff (h rd),
      msd_eq_zero_iff (B_pos _) ((arrayOk_iff _ _).1 (h rd)).2]
  have hmsd : issue (.msd rd) s = .next (s.setRes (msd (s.reg rd))) := issue_next rfl rfl
  rw [driverCanon, hmsd, andThen_next, canon, apply_ite Signed.sign]
  simp only [hres]

/-- A command that writes V[rd], and the zero test after it. -/
theorem write_driverCanon (h : s.DigitsOk) {rd : Reg} (hd : ArrayOk s.cfg d) (hi : issue i s = .next (s.setReg rd d))
    (g : Sign) : ∃ t f, andThen (issue i s) (driverCanon rd g) = .next (f, t) ∧ Signed.mk f (t.reg rd) = canon s.cfg g d := by
  refine ⟨_, _, (congrArg (andThen · _) hi).trans (driverCanon_eq (DigitsOk_setReg h hd) rd g), ?_⟩
  rw [setReg_reg_same, setRes_reg, setReg_reg_same, setReg_cfg]
  exact congrArg (Signed.mk _) (canon_mag s.cfg g d).symm

/-- A command that writes V[rd] when the host knows the sign. -/
theorem write_sign {rd : Reg} (hi : issue i s = .next (s.setReg rd d)) (g : Sign) :
    ∃ t f, andThen (issue i s) (fun u => .next (g, u)) = .next (f, t) ∧ Signed.mk f (t.reg rd) = ⟨g, d⟩ :=
  ⟨_, g, congrArg (andThen · _) hi, congrArg (Signed.mk g) (setReg_reg_same s rd d)⟩

theorem issue_cmp (s : State) (rx ry : Reg) :
    issue (.cmp rx ry) s = .next (s.setCompare (cmpArrays (s.reg rx) (s.reg ry))) := issue_next rfl rfl

theorem statusOrdering_withCompare (st : StatusWord) (o : Ordering) : statusOrdering (withCompare st o) = o := by
  obtain ⟨hlt, -, hgt, -⟩ := withCompare_bits o st
  rw [statusOrdering, hlt, hgt]
  cases o <;> rfl

theorem driverSadd_of_ne {sx sy : Sign} (hne : sx ≠ sy) (s : State) (rd rx ry : Reg) :
    ∃ t g, driverSadd rd rx ry sx sy s = .next (g, t) ∧
      Signed.mk g (t.reg rd) = sadd s.cfg ⟨sx, s.reg rx⟩ ⟨sy, s.reg ry⟩ := by
  obtain ⟨hlt, -, hgt, -⟩ := withCompare_bits (cmpArrays (s.reg rx) (s.reg ry)) s.st
  simp only [driverSadd, sadd, if_neg hne, issue_cmp, andThen_next, setCompare_st, hlt, hgt]
  cases cmpArrays (s.reg rx) (s.reg ry)
  case lt => exact write_sign (issue_next rfl rfl) sy
  case eq => exact write_sign (issue_next rfl rfl) .pos
  case gt => exact write_sign (issue_next rfl rfl) sx

theorem driverScmp_eq (s : State) (rx ry : Reg) (sx sy : Sign) :
    ∃ t, driverScmp rx ry sx sy s = .next (scmp ⟨sx, s.reg rx⟩ ⟨sy, s.reg ry⟩, t) := by
  cases sx <;> cases sy
  case neg.pos | pos.neg => exact ⟨s, rfl⟩
  case pos.pos | neg.neg =>
    simp only [driverScmp, issue_cmp, andThen_next, setCompare_st, statusOrdering_withCompare]
    exact ⟨_, rfl⟩

/-! ### The obligations -/

/-- Settles O50: subtraction is addition of the negation, which represents the opposite number. -/
theorem signedAddSubAreIntegerAddSub : Obligations.SignedAddSubAreIntegerAddSub := by
  intro c x y hx hy
  have hn := canonical_sneg hy
  refine ⟨canonical_sadd hx.1 hy.1, canonical_sadd hx.1 hn.1, toInt_sadd hx.1 hy.1, ?_⟩
  rw [sub_eq_add_neg, ← toInt_sneg hy]
  exact toInt_sadd hx.1 hn.1

/-- Settles O51, operation by operation; only the comparison needs that zero has one sign. -/
theorem signedMulDivModCmpAgreeWithIntegers : Obligations.SignedMulDivModCmpAgreeWithIntegers := by
  intro c x y hx hy
  refine ⟨toInt_smul hx.1 hy.1, fun h => ⟨toInt_sdiv hx.1 hy.1, toInt_smod hx.1 hy.1 h⟩,
    fun h => ⟨?_, toInt_smod_zero hx.1 hy.1 h⟩, scmp_eq hx hy⟩
  rw [toInt_sdiv hx.1 hy.1, h, Int.tdiv_zero]

/-- Settles O52: the laws of negation and EQ are those of the integers, since a number has one canonical value. -/
theorem signedWrapperLaws : Obligations.SignedWrapperLaws := by
  intro c x y hx hy
  have hn := canonical_sneg hx
  refine ⟨?_, ?_, ⟨fun h => (congrArg Signed.sign h).symm, fun h => ?_⟩, signedMul_comm hx.1 hy.1, ?_⟩
  · rw [← toInt_inj (canonical_sneg hn) hx, toInt_sneg hn, toInt_sneg hx, neg_neg]
  · have hsum : x.toInt c + (sneg c x).toInt c = 0 := by rw [toInt_sneg hx, add_neg_cancel]
    rw [← zeroArray_eq, ← toInt_inj (canonical_sadd hx.1 hn.1) (canonical_zero c), toInt_sadd hx.1 hn.1, hsum, toInt_pos,
      val_zeroArray, Nat.cast_zero]
    rw [hsum]
    exact CAP_pos c
  · rw [uplus, ← h]
  · rw [scmp_eq hx hy, compare_eq_iff_eq, toInt_inj hx hy]

/-- Settles O53: the word is that of the number represented, and the magnitude does not wrap. -/
theorem nativeSignedRoundTrip : Obligations.NativeSignedRoundTrip := by
  intro c z hz _ hfit
  have hval : val c.B (arr c z.natAbs) = z.natAbs := (val_arr c _).trans (Nat.mod_eq_of_lt hfit)
  have htoInt : (fromSigned c z).toInt c = z := by
    rw [fromSigned_eq hz hfit, toInt_canon (arr_ok c _)]
    split
    case isTrue h => rw [toInt_neg, hval]; omega
    case isFalse h => rw [toInt_pos, hval]; omega
  refine ⟨?_, htoInt, (toSignedWord_eq c _).trans (congrArg _ htoInt)⟩
  rw [fromSigned_eq hz hfit]
  exact canonical_canon (arr_ok c _)

/-- Settles O54: each procedure is one command and the zero test, but for the comparison and differing signs. -/
theorem driverRealisesSignedWrapper : Obligations.DriverRealisesSignedWrapper := by
  intro s rd rx ry sx sy h
  refine ⟨?_, write_driverCanon h (mulArrays_ok (h rx)) (issue_next rfl rfl) _,
    write_driverCanon h (divArrays_ok (h rx) (h ry)) (issue_next rfl rfl) _,
    write_driverCanon h (modArrays_ok (h rx) (h ry)) (issue_next rfl rfl) _, ?_⟩
  · by_cases hs : sx = sy
    · rw [driverSadd, if_pos hs, sadd, if_pos hs]
      exact write_driverCanon h (addArrays_ok (h rx) (h ry)) (issue_next rfl rfl) sx
    · exact driverSadd_of_ne hs s rd rx ry
  · obtain ⟨t, ht⟩ := driverScmp_eq s rx ry sx sy
    exact ⟨t, _, ht, rfl⟩

end Sys2Proof.Proofs
end

section
/-! The string codec (R113 to R121): the texts that are read and written as positional notation, and the host's command loops,
each turn of which does one turn of the codec's loop. -/

namespace Sys2Proof.Proofs

open Sys2Proof Sys2Proof.Machine Sys2Proof.Laws

variable {c : Config} {base : TextBase} {v : DigitArray}

/-! ### The codec of a base that N digits hold (R114, R116) -/

theorem toText_of_lt (h : base.radix < c.CAP) (v : DigitArray) :
    toText c base v = .ok (toTextLoop c (arr c base.radix) (powFuel c) v).reverse := if_neg h.not_ge

theorem fromText_of_lt (h : base.radix < c.CAP) (text : List Char) :
    fromText c base text = .ok (fromTextLoop c base.radix text.reverse (zeroArray c) (arr c 1)) := if_neg h.not_ge

/-- The digits of the value, most significant first: N * W divisions reach zero. -/
theorem toText_eq (h : base.radix < c.CAP) (hv : ArrayOk c v) :
    toText c base v = .ok ((Nat.digits base.radix (val c.B v)).reverse.map digitChar) := by
  have hfuel : val c.B v < 2 ^ powFuel c := (val_lt_CAP hv).trans_le (CAP_le c)
  rw [toText_of_lt h, toTextLoop_eq c (radix_bounds base).1 h _ v hv hfuel, List.map_reverse]

theorem fromText_of_textDigits (h : base.radix < c.CAP) {text : List Char} {ds : List Nat}
    (hds : TextDigits base.radix text ds) :
    fromText c base text = .ok (some (arr c (Nat.ofDigits base.radix ds.reverse))) := by
  rw [fromText_of_lt h, zeroArray_eq, fromTextLoop_eq c h _ _ 0 1 hds.reverse, one_mul, zero_add]

theorem textDigits_digits (base : TextBase) (n : Nat) :
    TextDigits base.radix ((Nat.digits base.radix n).reverse.map digitChar) (Nat.digits base.radix n).reverse :=
  textDigits_digitChar (radix_bounds base).2 fun _ hd =>
    Nat.digits_lt_base (radix_bounds base).1 (List.mem_reverse.1 hd)

/-! ### The commands of the host's loops -/

section Loops

variable {s : State} {ra rp rb rt rx : Reg} {radix : Nat}

theorem issue_ldn {x : Nat} (hx : x < 2 ^ s.cfg.K) (rd : Reg) :
    issue (.ldn rd x) s = .next (s.setReg rd (arr s.cfg x)) := issue_next (decide_eq_true hx) rfl

theorem issueAll_ldn (s : State) {x : Nat} (hx : x < 2 ^ s.cfg.K) (rd : Reg) (l : List Instr) :
    issueAll (.ldn rd x :: l) s = issueAll l (s.setReg rd (arr s.cfg x)) := issueAll_cons (decide_eq_true hx) rfl

theorem issue_msd (s : State) (r : Reg) : issue (.msd r) s = .next (s.setRes (msd (s.reg r))) := issue_next rfl rfl

/-- The zero test by MSD is that of the codec. -/
theorem setRes_msd_res_eq_zero_iff (h : s.DigitsOk) (r : Reg) :
    (s.setRes (msd (s.reg r))).res = 0 ↔ isZero s.cfg (s.reg r) = true := by
  rw [setRes_res, Nat.mod_eq_of_lt (msd_lt_two_pow_K h r), isZero_iff (h r),
    msd_eq_zero_iff (B_pos _) ((arrayOk_iff _ _).1 (h r)).2]

/-- A digit of a base that the scalar port carries fits RES. -/
theorem val_modArrays_arr_mod_two_pow_K (hv : ArrayOk c v) (h0 : 0 < radix) (hcap : radix < c.CAP) (hK : radix < 2 ^ c.K) :
    val c.B (modArrays c v (arr c radix)) % 2 ^ c.K = val c.B (modArrays c v (arr c radix)) := by
  have hval : val c.B (arr c radix) = radix := (val_arr _ _).trans (Nat.mod_eq_of_lt hcap)
  rw [val_modArrays_of_ne_zero hv (arr_ok c radix) (hval.symm ▸ h0.ne'), hval]
  exact Nat.mod_eq_of_lt ((Nat.mod_lt _ h0).trans hK)

/-! ### The loop of `to_string` (R121) -/

/-- One turn: RES shows the remainder's value, the quotient is in Vx and the base still in Vb. -/
theorem toText_turn (hxb : rx ≠ rb) (hxt : rx ≠ rt) (hbt : rb ≠ rt) (h : s.DigitsOk) (hb : s.reg rb = arr s.cfg radix)
    (h0 : 0 < radix) (hcap : radix < s.cfg.CAP) (hK : radix < 2 ^ s.cfg.K) :
    ∃ t q, issueAll [.mod rt rx rb, .stn rt] s = .next t ∧ issue (.div rx rx rb) t = .next q ∧
      t.res = val s.cfg.B (modArrays s.cfg (s.reg rx) (arr s.cfg radix)) ∧ q.cfg = s.cfg ∧ q.DigitsOk ∧
      q.reg rx = divArrays s.cfg (s.reg rx) (arr s.cfg radix) ∧ q.reg rb = arr s.cfg radix := by
  have hmod : (s.setReg rt (modArrays s.cfg (s.reg rx) (s.reg rb))).DigitsOk :=
    DigitsOk_setReg h (modArrays_ok (h rx) (h rb))
  refine ⟨_, _, (issueAll_cons rfl rfl).trans (issueAll_cons rfl rfl), issue_next rfl rfl, ?_, ?_, ?_, ?_, ?_⟩
  · rw [setRes_res, State.regVal, setReg_reg_same, setReg_cfg, hb]
    exact val_modArrays_arr_mod_two_pow_K (h rx) h0 hcap hK
  · rfl
  · exact DigitsOk_setReg hmod (divArrays_ok (hmod rx) (hmod rb))
  · simp [setReg_reg_other, hxt, hbt, hb]
  · simp [setReg_reg_other, hxb.symm, hbt, hb]

theorem driverToTextLoop_eq (hxb : rx ≠ rb) (hxt : rx ≠ rt) (hbt : rb ≠ rt) (h0 : 0 < radix) (fuel : Nat)
    (h : s.DigitsOk) (hb : s.reg rb = arr s.cfg radix) (hcap : radix < s.cfg.CAP) (hK : radix < 2 ^ s.cfg.K) :
    ∃ t, driverToTextLoop rx rb rt fuel s = .next (toTextLoop s.cfg (arr s.cfg radix) fuel (s.reg rx), t) := by
  induction fuel generalizing s with
  | zero => exact ⟨s, rfl⟩
  | succ fuel ih =>
    rw [driverToTextLoop, issue_msd, andThen_next, toTextLoop]
    simp only [setRes_msd_res_eq_zero_iff h]
    by_cases hz : isZero s.cfg (s.reg rx) = true
    · rw [if_pos hz, if_pos hz]
      exact ⟨_, rfl⟩
    · obtain ⟨t, q, ht, hq, hres, hcfg, hok, hqx, hqb⟩ :=
        toText_turn (s := s.setRes (msd (s.reg rx))) hxb hxt hbt h hb h0 hcap hK
      rw [setRes_cfg] at hcfg
      obtain ⟨z, hloop⟩ := ih hok (by rw [hqb, hcfg, setRes_cfg]) (hcfg ▸ hcap) (hcfg ▸ hK)
      rw [hcfg, hqx] at hloop
      refine ⟨z, ?_⟩
      rw [if_neg hz, if_neg hz, ht, andThen_next, hq, andThen_next, hloop, hres]
      rfl

theorem driverToText_eq (hxb : rx ≠ rb) (hxt : rx ≠ rt) (hbt : rb ≠ rt) (h : s.DigitsOk)
    (hcap : base.radix < s.cfg.CAP) (hK : base.radix < 2 ^ s.cfg.K) :
    ∃ text t, driverToText rx rb rt base s = .next (text, t) ∧ toText s.cfg base (s.reg rx) = .ok text := by
  have h0 : 0 < base.radix := two_pos.trans_le (radix_bounds base).1
  obtain ⟨t, ht⟩ := driverToTextLoop_eq (s := s.setReg rb (arr s.cfg base.radix)) hxb hxt hbt h0 (powFuel s.cfg)
    (DigitsOk_setReg h (arr_ok _ _)) (setReg_reg_same _ _ _) hcap hK
  refine ⟨_, t, ?_, toText_of_lt hcap _⟩
  rw [driverToText, issue_ldn hK, andThen_next, setReg_cfg, ht, setReg_cfg, setReg_reg_other _ _ _ _ hxb]

/-! ### The loop of `from_string` (R121) -/

/-- The registers before the first character: nothing accumulated, place value 1, and the base. -/
theorem fromText_start (hap : ra ≠ rp) (hab : ra ≠ rb) (hpb : rp ≠ rb) (h1 : 1 < 2 ^ s.cfg.K) (hK : radix < 2 ^ s.cfg.K) :
    ∃ t, issueAll [.zero ra, .ldn rp 1, .ldn rb radix] s = .next t ∧ t.cfg = s.cfg ∧ t.reg ra = zeroArray s.cfg ∧
      t.reg rp = arr s.cfg 1 ∧ t.reg rb = arr s.cfg radix := by
  refine ⟨_, (issueAll_cons rfl rfl).trans ((issueAll_ldn (s.setReg _ _) h1 _ _).trans
    (issueAll_ldn ((s.setReg _ _).setReg _ _) hK _ _)), ?_, ?_, ?_, ?_⟩
  · rfl
  · simp [setReg_reg_other, hap, hab]
  · simp [setReg_reg_other, hpb]
  · simp

section FromText

variable (hap : ra ≠ rp) (hab : ra ≠ rb) (hat : ra ≠ rt) (hpb : rp ≠ rb) (hpt : rp ≠ rt) (hbt : rb ≠ rt)
include hap hab hat hpb hpt hbt

/-- One turn: the digit d times the place value is added in, and the place value moves on by the base. -/
theorem fromText_turn {d : Nat} (hd : d < 2 ^ s.cfg.K) :
    ∃ t, issueAll [.ldn rt d, .mul rt rp rt, .add ra ra rt, .mul rp rp rb] s = .next t ∧ t.cfg = s.cfg ∧
      t.reg ra = addArrays s.cfg (s.reg ra) (mulArrays s.cfg (s.reg rp) (arr s.cfg d)) ∧
      t.reg rp = mulArrays s.cfg (s.reg rp) (s.reg rb) ∧ t.reg rb = s.reg rb := by
  refine ⟨_, (issueAll_ldn s hd _ _).trans ((issueAll_cons rfl rfl).trans
    ((issueAll_cons rfl rfl).trans (issueAll_cons rfl rfl))), ?_, ?_, ?_, ?_⟩
  · rfl
  · simp [setReg_reg_other, hap, hat, hpt]
  · simp [setReg_reg_other, hap.symm, hab.symm, hpt, hbt]
  · simp [setReg_reg_other, hab.symm, hpb.symm, hbt]

theorem driverFromTextLoop_eq (text : List Char) (hb : s.reg rb = arr s.cfg radix) (hK : radix < 2 ^ s.cfg.K) :
    ∃ parsed t, driverFromTextLoop ra rp rb rt radix text s = .next (parsed, t) ∧
      fromTextLoop s.cfg radix text (s.reg ra) (s.reg rp) = if parsed then some (t.reg ra) else none := by
  induction text generalizing s with
  | nil => exact ⟨true, s, rfl, rfl⟩
  | cons ch text ih =>
    rw [driverFromTextLoop, fromTextLoop]
    cases charDigit ch with
    | none => exact ⟨false, s, rfl, rfl⟩
    | some d =>
      by_cases hd : radix ≤ d
      · exact ⟨false, s, if_pos hd, if_pos hd⟩
      · obtain ⟨t, ht, hcfg, hta, htp, htb⟩ :=
          fromText_turn (s := s) hap hab hat hpb hpt hbt ((Nat.lt_of_not_le hd).trans hK)
        simp only [if_neg hd, ht, andThen_next]
        rw [← hb, ← hta, ← htp, ← hcfg]
        exact ih (by rw [htb, hb, hcfg]) (hcfg ▸ hK)

theorem driverFromText_eq (hcap : base.radix < s.cfg.CAP) (hK : base.radix < 2 ^ s.cfg.K) (text : List Char) :
    ∃ parsed t, driverFromText ra rp rb rt base text s = .next (parsed, t) ∧
      fromText s.cfg base text = .ok (if parsed then some (t.reg ra) else none) := by
  obtain ⟨u, hu, hcfg, hua, hup, hub⟩ := fromText_start (s := s) hap hab hpb ((radix_bounds base).1.trans hK.le) hK
  obtain ⟨parsed, t, ht, hloop⟩ :=
    driverFromTextLoop_eq (s := u) hap hab hat hpb hpt hbt text.reverse (hcfg ▸ hub) (hcfg ▸ hK)
  rw [hcfg, hua, hup] at hloop
  refine ⟨parsed, t, ?_, (fromText_of_lt hcap text).trans (congrArg Except.ok hloop)⟩
  rw [driverFromText, hu, andThen_next, ht]

end FromText

end Loops

/-! ### The obligations -/

/-- Settles O57: a numeral is the text of its digits, and so is the empty text, of none. -/
theorem fromTextParsesNumerals : Obligations.FromTextParsesNumerals := by
  intro c base text h
  refine ⟨fun n hn => ?_, ?_, fun ch hch hbad => ?_⟩
  · obtain ⟨-, ds, hds, rfl⟩ := numeral_eq.1 hn
    exact fromText_of_textDigits h hds
  · rintro rfl
    exact fromText_of_textDigits (ds := []) h ⟨rfl, by simp⟩
  · rw [fromText_of_lt h, fromTextLoop_none c _ _ _ _ ⟨ch, List.mem_reverse.2 hch, hbad⟩]

/-- Settles O58: the text has the digits of the value, and zero has none. -/
theorem textRoundTrip : Obligations.TextRoundTrip := by
  intro c base v h hv
  refine ⟨_, toText_eq h hv, ?_, ?_⟩
  · rw [fromText_of_textDigits h (textDigits_digits base _), List.reverse_reverse, Nat.ofDigits_digits, arr_val hv]
  · rw [List.map_eq_nil_iff, List.reverse_eq_nil_iff, Nat.digits_eq_nil_iff_eq_zero]

/-- Settles O59, loop by loop; the to_string loop does not use Vp. -/
theorem driverRealisesStringCodec : Obligations.DriverRealisesStringCodec := by
  intro s base ra rp rb rt h hcap hK hap hab hat hpb hpt hbt
  exact ⟨driverToText_eq hab hat hbt h hcap hK, driverFromText_eq hap hab hat hpb hpt hbt hcap hK⟩

end Sys2Proof.Proofs
end

section
/-! The error outcomes and reset at the port (R125 to R127, R137, R140, R141): the one refusal of an instruction and the two of a
command, each as an inversion; the illegal word; the edge with `rst` = 1. -/

namespace Sys2Proof.Proofs

open Sys2Proof Sys2Proof.Machine Sys2Proof.Laws

variable {s : State} {why : Refusal}

/-! ### Refusals -/

theorem refusedIn_iff {c : Config} {i : Instr} :
    refusedIn c i ↔ (∃ rd rs1 rs2, i = .pow rd rs1 rs2) ∧ c.CAP = 2 := by
  constructor
  · intro h
    obtain ⟨rd, rs1, rs2, rfl⟩ := exists_pow_of_refusedIn h
    exact ⟨⟨rd, rs1, rs2, rfl⟩, h⟩
  · rintro ⟨⟨rd, rs1, rs2, rfl⟩, h⟩
    exact h

theorem exec_refused_iff {i : Instr} :
    exec i s = .refused why ↔ why = .twoNotRepresentable ∧ refusedIn s.cfg i := by
  by_cases h : refusedIn s.cfg i
  · simp [exec_refused h, h, eq_comm]
  · simp [exec_runs h, h]

/-- What a refused command is: a legal one, which is POW where 2 is not representable, or has a scalar wider than the port. -/
theorem runCommand_refused_cases {m : Command} (h : runCommand m s = .refused why) :
    ∃ i, decode m = .ok i ∧
      ((why = .twoNotRepresentable ∧ refusedIn s.cfg i) ∨ (why = .scalarTooWide ∧ i.wf s.cfg = false)) := by
  match hd : decode m with
  | .error e =>
    rw [runCommand_error hd] at h
    cases h
  | .ok i =>
    refine ⟨i, rfl, ?_⟩
    by_cases hw : i.wf s.cfg = true
    · rw [runCommand_ok hd hw] at h
      exact .inl (exec_refused_iff.1 h)
    · rw [runCommand_wide hd hw] at h
      exact .inr ⟨(Host.Outcome.refused.inj h).symm, Bool.eq_false_iff.2 hw⟩

/-- A refused step takes a command: with no input left, and on the reset event, the step answers. -/
theorem exists_command_of_step_refused (h : step s = .refused why) :
    ∃ m rest, s.input = .command m :: rest ∧ runCommand m (s.afterInput rest) = .refused why := by
  match hi : s.input with
  | [] =>
    rw [step_nil hi] at h
    cases h
  | .reset :: rest =>
    rw [step_cons hi] at h
    cases h
  | .command m :: rest => exact ⟨m, rest, rfl, (step_cons hi).symm.trans h⟩

/-! ### The illegal word and reset at the port -/

theorem onlyIll_illegalCommand (s : State) : OnlyIll s s.illegalCommand := by
  obtain ⟨hlt, heq, hgt, -⟩ := withIllegal_bits s.st
  exact ⟨rfl, rfl, rfl, fun _ => rfl, hlt, heq, hgt⟩

theorem edge_reset {p : Port} {pins : Pins} (h : pins.rst = true) :
    p.edge pins = .next { p with core := p.core.applyReset, executing := none, rspValid := false } :=
  if_pos h

/-! ### The obligations -/

/-- Settles O12: a refused step takes a command, and a command is refused in two ways. -/
theorem stepRefusesOnlyNamedCases : Obligations.StepRefusesOnlyNamedCases := by
  intro s why hs
  obtain ⟨m, rest, hi, hm⟩ := exists_command_of_step_refused hs
  obtain ⟨i, hd, hcase⟩ := runCommand_refused_cases hm
  rw [refusedIn_iff] at hcase
  exact ⟨m, i, rest, hi, hd, hcase⟩

/-- Settles O8: the step is the error outcome of R45. -/
theorem illegalWordSetsIllOnly : Obligations.IllegalWordSetsIllOnly := fun s _ _ rest hi hd =>
  ⟨(s.afterInput rest).illegalCommand, (step_cons hi).trans (runCommand_error hd), (withIllegal_bits s.st).2.2.2,
    onlyIll_illegalCommand _⟩

/-- Settles O11: what is not refused for R93 runs. -/
theorem everyInstructionCompletes : Obligations.EveryInstructionCompletes := fun _ _ =>
  ⟨fun h => ⟨_, exec_runs (mt refusedIn_iff.1 h)⟩, fun hpow hcap => exec_refused (refusedIn_iff.2 ⟨hpow, hcap⟩)⟩

/-- Settles O49: `rst` = 1 decides the edge before the command in flight is looked at. -/
theorem portResetAbandonsCommand : Obligations.PortResetAbandonsCommand := fun p _ h =>
  ⟨by simp [Port.cmdReady, h], _, edge_reset h, rfl, rfl, rfl⟩

end Sys2Proof.Proofs
end
